-- ==== Sys2Proof/Word.lean ====
section
/-! DEFINITION. The value types of the unit: the 32-bit word, the byte, and the pair of words that both a
LaneVector and a ByteLaneVector are (spec/00_scope.md R9, R10). What is computed on them is in Machine/Lanes.lean. -/

namespace Sys2Proof

/-- A 32-bit word; bit `i` has weight 2^i (R9). -/
abbrev Word := BitVec 32

/-- A byte of TAB or OUT, or the value of a byte lane. -/
abbrev Byte := BitVec 8

/-- A pair of words, low half first (R10). -/
structure Pair where
  /-- word index 0, the source's low-half -/
  lo : Word
  /-- word index 1, the source's high-half -/
  hi : Word
  deriving DecidableEq, Repr

end Sys2Proof
end

