-- ==== Sys2Proof/Config.lean ====
section
/-! DEFINITION. What one instance of the unit fixes (spec/00_scope.md R8) and the free values: what the spec leaves
open without a value. A free value is a constant with no body, so no proof can use what it is. -/

namespace Sys2Proof

/-- The grain of a byte-lane shift (R8, spec/90_conflicts.md C3): the adjacent bits inside which it moves bits. -/
inductive ShiftGrain where
  /-- SHIFT_GRAIN = 32, the spec's decision D10 (R155 to R159) -/
  | word
  /-- SHIFT_GRAIN = 8, the reading the spec did not take but states (R165) -/
  | byteLane
  deriving DecidableEq, Repr

/-- The open parameters of an instance (R8). They are held in State, no step changes them, and every statement
holds for every value of them. DESIGN CHOICE, safe: log 1. -/
structure Params where
  /-- TAB_SLOTS, the number of slots of the attached table (R31) -/
  tabSlots : Nat
  /-- OUT_BYTES, the number of bytes of the attached output buffer (R32) -/
  outBytes : Nat
  /-- MASKBYTE[0], MASKBYTE[1], ...: as many as NMASK (R154) -/
  masks : List Byte
  /-- SHIFT_GRAIN (R8; log 3) -/
  grain : ShiftGrain
  deriving DecidableEq, Repr

/-- NMASK, the number of named mask constants (R8). -/
def Params.nmask (p : Params) : Nat := p.masks.length

/-- The ranges R8 gives the parameters. -/
abbrev Params.Valid (p : Params) : Prop :=
  1 ≤ p.tabSlots ∧ p.tabSlots ≤ 4096 ∧ p.outBytes ≤ 1024 ∧ p.nmask ≤ 16

/-- What register `v[i]` holds after the reset number `n` (R39: unspecified, need not be the same after two resets).
Free value: log 4. -/
opaque Config.vAtReset (n i : Nat) : BitVec 64

/-- What register `b[i]` holds after the reset number `n` (R39). Free value: log 4. -/
opaque Config.bAtReset (n i : Nat) : BitVec 64

/-- What the TAB byte at address `a` reads as while nothing has written it (R40, spec/93 U2). Free value: log 6. -/
opaque Config.tabByte (a : Nat) : Byte

/-- What the OUT byte at address `a` reads as while nothing has written it (R40, spec/93 U2). Free value: log 6. -/
opaque Config.outByte (a : Nat) : Byte

/-- MASKBYTE[k] of the instance that State.reset names (R154: the spec withholds the bytes). Free value: log 2. -/
opaque Config.maskByte (k : Nat) : Byte

/-- The instance State.reset names: the largest of R8's ranges, so that no command word is turned away for want of
table, buffer or mask constants. DESIGN CHOICE: log 1. SHIFT_GRAIN is the spec's own 32. -/
def Config.resetParams : Params where
  tabSlots := 4096
  outBytes := 1024
  masks :=
    [Config.maskByte 0, Config.maskByte 1, Config.maskByte 2, Config.maskByte 3,
     Config.maskByte 4, Config.maskByte 5, Config.maskByte 6, Config.maskByte 7,
     Config.maskByte 8, Config.maskByte 9, Config.maskByte 10, Config.maskByte 11,
     Config.maskByte 12, Config.maskByte 13, Config.maskByte 14, Config.maskByte 15]
  grain := .word

end Sys2Proof
end

