-- ==== Sys2Proof/Syntax.lean ====
section
/-! DEFINITION. The sixteen commands with their operands (spec/30_encoding.md R82 to R85), the names of their opcodes
and the eight formats. What the commands do is in Machine/. -/

namespace Sys2Proof

/-- A register number; the opcode decides which file it numbers (R83). -/
abbrev Reg := BitVec 4

/-- A command: one constructor for each row of spec/opcode_table.json, the operands in the order of their fields,
most significant first (R82). -/
inductive Instr where
  /-- `VZERO vd` (R111) -/
  | vzero (rd : Reg)
  /-- `VONES vd` (R112) -/
  | vones (rd : Reg)
  /-- `VAND vd, va, vb` (R113) -/
  | vand (rd ra rb : Reg)
  /-- `VOR vd, va, vb` (R114) -/
  | vor (rd ra rb : Reg)
  /-- `VXOR vd, va, vb` (R115) -/
  | vxor (rd ra rb : Reg)
  /-- `VNOT vd, va` (R116) -/
  | vnot (rd ra : Reg)
  /-- `TLOAD vd, slot` (R131) -/
  | tload (r : Reg) (slot : BitVec 12)
  /-- `TSTORE slot, vs` (R132) -/
  | tstore (r : Reg) (slot : BitVec 12)
  /-- `TACCX cnt, obase, slot` (R133) -/
  | taccx (cnt : BitVec 4) (slot : BitVec 12) (obase : BitVec 10)
  /-- `BAND bd, ba, bb` (R151) -/
  | band (rd ra rb : Reg)
  /-- `BOR bd, ba, bb` (R152) -/
  | bor (rd ra rb : Reg)
  /-- `BXOR bd, ba, bb` (R153) -/
  | bxor (rd ra rb : Reg)
  /-- `BMASK bd, k` (R154) -/
  | bmask (rd : Reg) (k : BitVec 4)
  /-- `BSHL bd, ba, n` (R155) -/
  | bshl (rd ra : Reg) (n : BitVec 5)
  /-- `BSHR bd, ba, n` (R156) -/
  | bshr (rd ra : Reg) (n : BitVec 5)
  /-- `SYNC` (R180) -/
  | sync
  deriving DecidableEq, Repr

/-- The sixteen assigned opcodes, by name (R85). -/
inductive Opcode where
  | vzero | vones | vand | vor | vxor | vnot
  | tload | tstore | taccx
  | band | bor | bxor | bmask | bshl | bshr
  | sync
  deriving DecidableEq, Repr

/-- The eight formats (R82), by the names the spec gives them. -/
inductive Format where
  | z | d | da | dab | dk | dan | rs | nso
  deriving DecidableEq, Repr

/-- Why a word is no command (R94). Each is answered by the fault ILLEGAL_COMMAND (R191). -/
inductive DecodeError where
  /-- the opcode is one of the 48 reserved values (R86) -/
  | reservedOpcode
  /-- the opcode is assigned and the `zero` field of its format is not 0 (R90) -/
  | reservedBits
  /-- BMASK with `k >= NMASK` (R91) -/
  | noSuchMask
  deriving DecidableEq, Repr

end Sys2Proof
end

