-- ==== Sys2Proof/WellFormed.lean ====
section
/-! DEFINITION. Which commands an instance with `nmask` mask constants has (spec/30_encoding.md R84, R91, R92). -/

namespace Sys2Proof

/-- A command is well formed when its word is a command of the instance. The fields have their exact widths as types,
so the one check left is R91's: a BMASK names an existing mask constant. A `cnt`, `slot` or `obase` out of range is
well formed: it decodes, and faults when executed (R92). -/
def wellFormed (nmask : Nat) (i : Instr) : Bool :=
  match i with
  | .vzero _ => true
  | .vones _ => true
  | .vand _ _ _ => true
  | .vor _ _ _ => true
  | .vxor _ _ _ => true
  | .vnot _ _ => true
  | .tload _ _ => true
  | .tstore _ _ => true
  | .taccx _ _ _ => true
  | .band _ _ _ => true
  | .bor _ _ _ => true
  | .bxor _ _ _ => true
  | .bmask _ k => decide (k.toNat < nmask)
  | .bshl _ _ _ => true
  | .bshr _ _ _ => true
  | .sync => true

end Sys2Proof
end

