-- ==== Sys2Proof/Decode.lean ====
section
/-! DEFINITION. Decoding a 32-bit command word (spec/30_encoding.md R80 to R94) and encoding a command, each written
from the tables of R82 and R85. A command word has no byte order (spec/20_memory.md R53), so the decoder reads words. -/

namespace Sys2Proof

/-- The 6-bit opcode of each command (R85). -/
def Opcode.code : Opcode → BitVec 6
  | .vzero => 0x01#6
  | .vones => 0x02#6
  | .vand => 0x03#6
  | .vor => 0x04#6
  | .vxor => 0x05#6
  | .vnot => 0x06#6
  | .tload => 0x11#6
  | .tstore => 0x12#6
  | .taccx => 0x13#6
  | .band => 0x21#6
  | .bor => 0x22#6
  | .bxor => 0x23#6
  | .bmask => 0x24#6
  | .bshl => 0x25#6
  | .bshr => 0x26#6
  | .sync => 0x31#6

/-- The command an opcode value names, none for the 48 reserved values (R85, R86). -/
def Opcode.ofCode (op : BitVec 6) : Option Opcode :=
  match op.toNat with
  | 0x01 => some .vzero
  | 0x02 => some .vones
  | 0x03 => some .vand
  | 0x04 => some .vor
  | 0x05 => some .vxor
  | 0x06 => some .vnot
  | 0x11 => some .tload
  | 0x12 => some .tstore
  | 0x13 => some .taccx
  | 0x21 => some .band
  | 0x22 => some .bor
  | 0x23 => some .bxor
  | 0x24 => some .bmask
  | 0x25 => some .bshl
  | 0x26 => some .bshr
  | 0x31 => some .sync
  | _ => none

/-- The format of each command (R82, R85). -/
def Opcode.format : Opcode → Format
  | .vzero => .d
  | .vones => .d
  | .vand => .dab
  | .vor => .dab
  | .vxor => .dab
  | .vnot => .da
  | .tload => .rs
  | .tstore => .rs
  | .taccx => .nso
  | .band => .dab
  | .bor => .dab
  | .bxor => .dab
  | .bmask => .dk
  | .bshl => .dan
  | .bshr => .dan
  | .sync => .z

/-- `op` = cmd[31:26] (R81). -/
def opField (cmd : Word) : BitVec 6 := cmd.extractLsb' 26 6
/-- `rd` or `r` = cmd[25:22] (R82). -/
def rdField (cmd : Word) : Reg := cmd.extractLsb' 22 4
/-- `ra` = cmd[21:18] (R82). -/
def raField (cmd : Word) : Reg := cmd.extractLsb' 18 4
/-- `rb` = cmd[17:14] (R82). -/
def rbField (cmd : Word) : Reg := cmd.extractLsb' 14 4
/-- `k` = cmd[21:18] (R82). -/
def kField (cmd : Word) : BitVec 4 := cmd.extractLsb' 18 4
/-- `n` = cmd[17:13] (R82). -/
def nField (cmd : Word) : BitVec 5 := cmd.extractLsb' 13 5
/-- `slot` = cmd[21:10] (R82). -/
def slotField (cmd : Word) : BitVec 12 := cmd.extractLsb' 10 12
/-- `cnt` = cmd[25:22] (R82). -/
def cntField (cmd : Word) : BitVec 4 := cmd.extractLsb' 22 4
/-- `obase` = cmd[9:0] (R82). -/
def obaseField (cmd : Word) : BitVec 10 := cmd.extractLsb' 0 10

/-- How many of the low bits of a word are the `zero` field of a format (R82): it always starts at bit 0. -/
def Format.zeroBits : Format → Nat
  | .z => 26
  | .d => 22
  | .da => 18
  | .dab => 14
  | .dk => 18
  | .dan => 13
  | .rs => 10
  | .nso => 0

/-- The `zero` field of a format holds 0 in the word (R90). -/
def zeroFieldIsZero (f : Format) (cmd : Word) : Bool :=
  cmd.extractLsb' 0 f.zeroBits == 0#f.zeroBits

/-- The command of an opcode with the fields of a word (R82, R94). -/
def Opcode.build (op : Opcode) (cmd : Word) : Instr :=
  match op with
  | .vzero => .vzero (rdField cmd)
  | .vones => .vones (rdField cmd)
  | .vand => .vand (rdField cmd) (raField cmd) (rbField cmd)
  | .vor => .vor (rdField cmd) (raField cmd) (rbField cmd)
  | .vxor => .vxor (rdField cmd) (raField cmd) (rbField cmd)
  | .vnot => .vnot (rdField cmd) (raField cmd)
  | .tload => .tload (rdField cmd) (slotField cmd)
  | .tstore => .tstore (rdField cmd) (slotField cmd)
  | .taccx => .taccx (cntField cmd) (slotField cmd) (obaseField cmd)
  | .band => .band (rdField cmd) (raField cmd) (rbField cmd)
  | .bor => .bor (rdField cmd) (raField cmd) (rbField cmd)
  | .bxor => .bxor (rdField cmd) (raField cmd) (rbField cmd)
  | .bmask => .bmask (rdField cmd) (kField cmd)
  | .bshl => .bshl (rdField cmd) (raField cmd) (nField cmd)
  | .bshr => .bshr (rdField cmd) (raField cmd) (nField cmd)
  | .sync => .sync

/-- The decode procedure of R94, for an instance with `nmask` mask constants. -/
def decode (nmask : Nat) (cmd : Word) : Except DecodeError Instr :=
  match Opcode.ofCode (opField cmd) with
  | none => .error .reservedOpcode
  | some op =>
    if !zeroFieldIsZero op.format cmd then .error .reservedBits
    else if op = .bmask ∧ nmask ≤ (kField cmd).toNat then .error .noSuchMask
    else .ok (op.build cmd)

/-- A word of format D (R82). -/
def encodeD (op : Opcode) (rd : Reg) : Word := op.code ++ rd ++ 0#22
/-- A word of format DA (R82). -/
def encodeDA (op : Opcode) (rd ra : Reg) : Word := op.code ++ rd ++ ra ++ 0#18
/-- A word of format DAB (R82). -/
def encodeDAB (op : Opcode) (rd ra rb : Reg) : Word := op.code ++ rd ++ ra ++ rb ++ 0#14
/-- A word of format DK (R82). -/
def encodeDK (op : Opcode) (rd : Reg) (k : BitVec 4) : Word := op.code ++ rd ++ k ++ 0#18
/-- A word of format DAN (R82). -/
def encodeDAN (op : Opcode) (rd ra : Reg) (n : BitVec 5) : Word := op.code ++ rd ++ ra ++ n ++ 0#13
/-- A word of format RS (R82). -/
def encodeRS (op : Opcode) (r : Reg) (slot : BitVec 12) : Word := op.code ++ r ++ slot ++ 0#10
/-- A word of format NSO (R82). -/
def encodeNSO (op : Opcode) (cnt : BitVec 4) (slot : BitVec 12) (obase : BitVec 10) : Word :=
  op.code ++ cnt ++ slot ++ obase
/-- A word of format Z (R82). -/
def encodeZ (op : Opcode) : Word := op.code ++ 0#26

/-- The command word of a command (R82, R85). -/
def encode (i : Instr) : Word :=
  match i with
  | .vzero rd => encodeD .vzero rd
  | .vones rd => encodeD .vones rd
  | .vand rd ra rb => encodeDAB .vand rd ra rb
  | .vor rd ra rb => encodeDAB .vor rd ra rb
  | .vxor rd ra rb => encodeDAB .vxor rd ra rb
  | .vnot rd ra => encodeDA .vnot rd ra
  | .tload r slot => encodeRS .tload r slot
  | .tstore r slot => encodeRS .tstore r slot
  | .taccx cnt slot obase => encodeNSO .taccx cnt slot obase
  | .band rd ra rb => encodeDAB .band rd ra rb
  | .bor rd ra rb => encodeDAB .bor rd ra rb
  | .bxor rd ra rb => encodeDAB .bxor rd ra rb
  | .bmask rd k => encodeDK .bmask rd k
  | .bshl rd ra n => encodeDAN .bshl rd ra n
  | .bshr rd ra n => encodeDAN .bshr rd ra n
  | .sync => encodeZ .sync

/-- What the decoder of the instance State.reset names (NMASK = 16, log 1) reads from the 32-bit word `w`; none where
it rejects the word, where `nbits` is no length up to one word, or where `w` has a bit above `nbits`. -/
def decodeTableWord (nbits w : Nat) : Option Instr :=
  if nbits ≤ 32 ∧ w < 2 ^ nbits then (decode Config.resetParams.nmask (BitVec.ofNat 32 w)).toOption else none

end Sys2Proof
end

