-- ==== Sys2Proof/Machine/Lanes.lean ====
section
/-! DEFINITION. The views and operators of a pair: lanes and byte lanes (spec/00_scope.md R10 to R13), the lane
operations (spec/41_lane_vector_algebra.md R110) and the byte-lane shifts (spec/43_byte_lane_algebra.md R155 to R165). -/

namespace Sys2Proof

/-- `bits64(P)`, the 64-bit value hi * 2^32 + lo (R10). -/
def Pair.bits64 (p : Pair) : BitVec 64 := p.hi ++ p.lo

/-- The pair whose `bits64` is the given value (R10, R36). -/
def Pair.ofBits64 (x : BitVec 64) : Pair := ⟨x.extractLsb' 0 32, x.extractLsb' 32 32⟩

/-- `lane(P, L)`: word index L div 32, bit index L mod 32 (R11). -/
def Pair.lane (p : Pair) (l : Nat) : Bool := p.bits64.getLsbD l

/-- `blane(P, b)`: bits 8b+7 down to 8b (R12). -/
def Pair.blane (p : Pair) (b : Nat) : Byte := p.bits64.extractLsb' (8 * b) 8

/-- The pair whose byte lane `b` holds `f b`, for b = 0 to 7 (R12; the slot layout of spec/20_memory.md R51). -/
def Pair.ofLanes (f : Nat → Byte) : Pair := ⟨f 3 ++ f 2 ++ f 1 ++ f 0, f 7 ++ f 6 ++ f 5 ++ f 4⟩

/-- The LaneVector with all 64 lanes false (R111). -/
def Pair.zero : Pair := ⟨0x00000000#32, 0x00000000#32⟩

/-- The LaneVector with all 64 lanes true (R112). -/
def Pair.ones : Pair := ⟨0xFFFFFFFF#32, 0xFFFFFFFF#32⟩

/-- AND of two pairs, word by word (R13, R113, R151). -/
def Pair.and (p q : Pair) : Pair := ⟨p.lo &&& q.lo, p.hi &&& q.hi⟩

/-- OR of two pairs, word by word (R13, R114, R152). -/
def Pair.or (p q : Pair) : Pair := ⟨p.lo ||| q.lo, p.hi ||| q.hi⟩

/-- XOR of two pairs, word by word (R13, R115, R153). -/
def Pair.xor (p q : Pair) : Pair := ⟨p.lo ^^^ q.lo, p.hi ^^^ q.hi⟩

/-- Complement of a pair, word by word (R13, R116). -/
def Pair.not (p : Pair) : Pair := ⟨~~~p.lo, ~~~p.hi⟩

/-- `shiftLeft(a, n)`: each word as a whole under SHIFT_GRAIN = 32 (R155), each byte lane inside its own 8 bits under
SHIFT_GRAIN = 8 (R165). Zeros enter. -/
def Pair.shiftLeft (g : ShiftGrain) (p : Pair) (n : Nat) : Pair :=
  match g with
  | .word => ⟨p.lo <<< n, p.hi <<< n⟩
  | .byteLane => .ofLanes fun b => p.blane b <<< n

/-- `shiftRight(a, n)`: as `shiftLeft`, toward the less significant end; logical (R156, R165). -/
def Pair.shiftRight (g : ShiftGrain) (p : Pair) (n : Nat) : Pair :=
  match g with
  | .word => ⟨p.lo >>> n, p.hi >>> n⟩
  | .byteLane => .ofLanes fun b => p.blane b >>> n

end Sys2Proof
end

