-- ==== Sys2Proof/Machine/State.lean ====
section
/-! DEFINITION. The state of one unit and of the host beside it (spec/10_state.md R20 to R41,
spec/70_reset_and_hazards.md R226), as plain data, and the state after reset. -/

namespace Sys2Proof.Machine

/-- The two address spaces (R59). -/
inductive Space where
  /-- the table (R31) -/
  | tab
  /-- the output buffer (R32) -/
  | out
  deriving DecidableEq, Repr

/-- The four fault causes of the unit (spec/60_exceptions.md R190). Raising one is no stop of the model: it is the fault
entry of R200, a next state. -/
inductive Cause where
  /-- code 1 (R191) -/
  | illegalCommand
  /-- code 2 (R192) -/
  | countRange
  /-- code 3 (R193) -/
  | slotRange
  /-- code 4 (R194) -/
  | outRange
  deriving DecidableEq, Repr

/-- What the host may do between two commands, other than issuing one (R226). -/
inductive HostAccess where
  /-- assert `rst` (R220) -/
  | reset
  /-- write one register through the host register port: `hr_sel`, `hr_idx`, `hr_wdata` (R36) -/
  | writeReg (sel : BitVec 2) (idx : Reg) (data : BitVec 64)
  /-- read one register through the host register port: `hr_sel`, `hr_idx` (R36) -/
  | readReg (sel : BitVec 2) (idx : Reg)
  /-- write one byte of TAB or OUT -/
  | writeByte (space : Space) (addr : Nat) (x : Byte)
  /-- read one byte of TAB or OUT -/
  | readByte (space : Space) (addr : Nat)
  /-- look at `fault_o` (R203) -/
  | watchFault
  deriving DecidableEq, Repr

/-- A move of the host (R226). -/
inductive HostMove where
  /-- present one command word on the command port (R35) -/
  | issue (cmd : Word)
  /-- one of the host's other interactions -/
  | access (a : HostAccess)
  deriving DecidableEq, Repr

/-- What a read gives the host (R36, R203, R226). -/
inductive HostReply where
  /-- `hr_rdata` -/
  | data (x : BitVec 64)
  /-- a byte of TAB or OUT -/
  | byte (x : Byte)
  /-- the level of `fault_o` -/
  | level (on : Bool)
  deriving DecidableEq, Repr

/-- How the model itself stops. The unit's four faults are NOT here: they are next states (`takeFault`). -/
inductive Fault where
  /-- Raised by a host move that names a byte address TAB or OUT does not have (R59); no command raises it.
  Safe: the spec gives the host no such move (R226), and the model says nothing past it (log 12). -/
  | noSuchByte (space : Space) (addr : Nat)
  deriving DecidableEq, Repr

/-- What the model gives no meaning. -/
inductive Refusal where
  /-- Raised by an arm of `exec` whose command has no meaning yet; no arm is left that raises it. Safe: it stops. -/
  | notModelled (mnemonic : String)
  deriving DecidableEq, Repr

/-- The state: R20's list, the instance's parameters (R8), the written marks (R25), and the host's side (R26, R226). -/
structure State where
  /-- the V file, `v0` to `v15` (R21) -/
  v : Vector Pair 16
  /-- the B file, `b0` to `b15` (R23) -/
  b : Vector Pair 16
  /-- which V registers count as written (R25); no command reads it (log 5) -/
  vWritten : Vector Bool 16
  /-- which B registers count as written (R25); no command reads it (log 5) -/
  bWritten : Vector Bool 16
  /-- `STATUS` (R28) -/
  status : BitVec 8
  /-- `FCMD` (R29) -/
  fcmd : Word
  /-- the TAB bytes something has written, by rising address (R31; log 6) -/
  tab : List Host.Cell
  /-- the OUT bytes something has written, by rising address (R32; log 6) -/
  out : List Host.Cell
  /-- the open parameters of the instance (R8), which no step changes (log 1) -/
  params : Params
  /-- the host's index of the next command to present (R26) -/
  pc : Nat
  /-- the moves the host has still to make, in order (R26, R226; log 7) -/
  script : List HostMove
  /-- what the host has read, newest first (log 13) -/
  replies : List HostReply
  /-- the model's own counter of the host's resets, which picks the free register values (log 4) -/
  resets : Nat
  deriving DecidableEq, Repr

/-- The outcome of a command, of a host access or of a step. -/
abbrev Result := Host.Outcome State Fault Refusal

/-- A register file whose register `i` holds `f i`. -/
def regFile (f : Nat → BitVec 64) : Vector Pair 16 :=
  #v[.ofBits64 (f 0), .ofBits64 (f 1), .ofBits64 (f 2), .ofBits64 (f 3),
     .ofBits64 (f 4), .ofBits64 (f 5), .ofBits64 (f 6), .ofBits64 (f 7),
     .ofBits64 (f 8), .ofBits64 (f 9), .ofBits64 (f 10), .ofBits64 (f 11),
     .ofBits64 (f 12), .ofBits64 (f 13), .ofBits64 (f 14), .ofBits64 (f 15)]

/-- The marks of a file no register of which counts as written (R39). -/
def noneWritten : Vector Bool 16 :=
  #v[false, false, false, false, false, false, false, false,
     false, false, false, false, false, false, false, false]

/-- Right after reset (R37 to R41, R220): control state 0, registers free values and not written, nothing listed in
memory, and a host that has issued nothing (R26). The instance is the one log 1 names. -/
def State.reset : State where
  v := regFile (Config.vAtReset 0)
  b := regFile (Config.bAtReset 0)
  vWritten := noneWritten
  bWritten := noneWritten
  status := 0x00#8
  fcmd := 0x00000000#32
  tab := []
  out := []
  params := Config.resetParams
  pc := 0
  script := []
  replies := []
  resets := 0

end Sys2Proof.Machine
end

