-- ==== Sys2Proof/Machine/Flags.lean ====
section
/-! DEFINITION. The status register (spec/10_state.md R28) and `fault_o` (spec/60_exceptions.md R203). The unit has no
condition codes: no command writes a flag (R27), so there is no flag computation. -/

namespace Sys2Proof.Machine

/-- The cause code of R190. -/
def Cause.code : Cause → BitVec 4
  | .illegalCommand => 1#4
  | .countRange => 2#4
  | .slotRange => 3#4
  | .outRange => 4#4

/-- `STATUS` after fault entry: `CAUSE` in 7:4, hardwired 0 in 3:1, `FAULT` = 1 in bit 0 (R28, R200). -/
def faultStatus (c : Cause) : BitVec 8 := c.code ++ 0#3 ++ 1#1

/-- `STATUS` as it is read: bits 3:1 are hardwired 0 (R28; log 14). -/
def statusWord (s : State) : BitVec 8 := s.status &&& 0xF1#8

/-- `STATUS.FAULT` (R28). -/
def faultBit (s : State) : Bool := s.status.getLsbD 0

/-- `STATUS.CAUSE` (R28). -/
def causeField (s : State) : BitVec 4 := s.status.extractLsb' 4 4

/-- The level of `fault_o` (R203). -/
def faultOut (s : State) : Bool := faultBit s

/-- The unit is halted: it accepts no command (R202). -/
def halted (s : State) : Bool := faultBit s

end Sys2Proof.Machine
end

