-- ==== Sys2Proof/Machine/Operands.lean ====
section
/-! DEFINITION. The operands of the commands: registers of either file (spec/10_state.md R21 to R25), addresses
(spec/42_table_codec.md R130), the range checks (R131, R132, R134) and the mask constants (R154). -/

namespace Sys2Proof.Machine

/-- `v[i]` (R14). -/
def getV (s : State) (i : Reg) : Pair := s.v[i.toNat]'i.isLt

/-- `b[i]` (R14). -/
def getB (s : State) (i : Reg) : Pair := s.b[i.toNat]'i.isLt

/-- `v[i] <- P`: the whole pair is replaced and the register counts as written (R22, R25). -/
def setV (s : State) (i : Reg) (p : Pair) : State :=
  { s with v := s.v.set i.toNat p i.isLt, vWritten := s.vWritten.set i.toNat true i.isLt }

/-- `b[i] <- P`: the whole pair is replaced and the register counts as written (R22, R23, R25). -/
def setB (s : State) (i : Reg) (p : Pair) : State :=
  { s with b := s.b.set i.toNat p i.isLt, bWritten := s.bWritten.set i.toNat true i.isLt }

/-- The register `v[i]` counts as written (R25). -/
def writtenV (s : State) (i : Reg) : Bool := s.vWritten[i.toNat]'i.isLt

/-- The register `b[i]` counts as written (R25). -/
def writtenB (s : State) (i : Reg) : Bool := s.bWritten[i.toNat]'i.isLt

/-- The TAB address of byte 0 of a slot, 8 * slot (R31, R130). -/
def slotAddr (slot : BitVec 12) : Nat := 8 * slot.toNat

/-- The slot is within the table (R193). -/
def slotInRange (s : State) (slot : BitVec 12) : Bool := decide (slot.toNat < s.params.tabSlots)

/-- The three checks of TACCX, in their order; the first that fails gives the cause (R134). -/
def taccxCheck (s : State) (cnt : BitVec 4) (slot : BitVec 12) (obase : BitVec 10) : Option Cause :=
  if 8 < cnt.toNat then some .countRange
  else if s.params.tabSlots ≤ slot.toNat then some .slotRange
  else if s.params.outBytes < obase.toNat + cnt.toNat then some .outRange
  else none

/-- `MASKBYTE[k]`, none when `k >= NMASK` (R91, R154). -/
def maskByte (s : State) (k : BitVec 4) : Option Byte := s.params.masks[k.toNat]?

end Sys2Proof.Machine
end

