-- ==== Sys2Proof/Machine/Ops.lean ====
section
/-! DEFINITION. The named operations the commands are made of: bytes of TAB and OUT (spec/20_memory.md R50 to R59), slots
(R51), the accumulation of TACCX (spec/42_table_codec.md R133), completing a command (spec/10_state.md R26), fault entry
(spec/60_exceptions.md R200) and the host's taking the next move of its script. -/

namespace Sys2Proof.Machine

/-- The canonical form of a memory: addresses strictly rising. What lists no byte is not written (log 6). -/
abbrev Memory.wf (m : List Host.Cell) : Prop := m.Pairwise fun c d => c.1 < d.1

/-- The byte something has written at an address, none where nothing has. -/
def Memory.read (m : List Host.Cell) (a : Nat) : Option Byte :=
  match m with
  | [] => none
  | c :: m => if c.1 = a then some c.2 else Memory.read m a

/-- Writing one byte, in place or at its place in the rising order. -/
def Memory.write (m : List Host.Cell) (a : Nat) (x : Byte) : List Host.Cell :=
  match m with
  | [] => [(a, x)]
  | c :: m =>
    if a < c.1 then (a, x) :: c :: m
    else if c.1 = a then (a, x) :: m
    else c :: Memory.write m a x

/-- `MemRead(TAB, a, 1)` (R14); a byte nothing has written is a free value (log 6). -/
def readTab (s : State) (a : Nat) : Byte := (Memory.read s.tab a).getD (Config.tabByte a)

/-- `MemRead(OUT, a, 1)` (R14); a byte nothing has written is a free value (log 6). -/
def readOut (s : State) (a : Nat) : Byte := (Memory.read s.out a).getD (Config.outByte a)

/-- `MemWrite(TAB, a, 1, x)` (R14). -/
def writeTab (s : State) (a : Nat) (x : Byte) : State := { s with tab := Memory.write s.tab a x }

/-- `MemWrite(OUT, a, 1, x)` (R14). -/
def writeOut (s : State) (a : Nat) (x : Byte) : State := { s with out := Memory.write s.out a x }

/-- `MemRead(TAB, 8*slot, 8)`: byte j of the slot is byte lane j of the pair (R51, R52). -/
def readSlot (s : State) (slot : BitVec 12) : Pair := .ofLanes fun j => readTab s (slotAddr slot + j)

/-- The first `n` byte lanes of a pair to the `n` TAB bytes from `base` (R51). -/
def storeLanes (s : State) (base : Nat) (p : Pair) (n : Nat) : State :=
  match n with
  | 0 => s
  | n + 1 => writeTab (storeLanes s base p n) (base + n) (p.blane n)

/-- `MemWrite(TAB, 8*slot, 8, P)` (R51). -/
def writeSlot (s : State) (slot : BitVec 12) (p : Pair) : State := storeLanes s (slotAddr slot) p 8

/-- The loop of R133 for j = 0 to n-1: OUT byte `obase + j` takes the XOR of itself and TAB byte `base + j`. The order
cannot be observed (R63; log 19). -/
def accumulate (s : State) (base obase n : Nat) : State :=
  match n with
  | 0 => s
  | n + 1 =>
    let t := accumulate s base obase n
    writeOut t (obase + n) (readOut t (obase + n) ^^^ readTab t (base + n))

/-- A command completes without a fault: the host's index moves on (R26). -/
def complete (s : State) : State := { s with pc := s.pc + 1 }

/-- Fault entry (R200): `STATUS` and `FCMD` are written and nothing else, the host's index stays (R201). -/
def takeFault (c : Cause) (cmd : Word) (s : State) : State := { s with status := faultStatus c, fcmd := cmd }

/-- A word that does not decode (R94): ILLEGAL_COMMAND (R191). -/
def illegalCommand (cmd : Word) (s : State) : State := takeFault .illegalCommand cmd s

/-- What the script has for the next step. -/
inductive NextMove where
  /-- nothing: the script is at its end, or the halted unit does not accept the command presented (R202; log 8) -/
  | idle
  /-- the unit accepts a command word; the state after that -/
  | command (cmd : Word) (s : State)
  /-- another interaction of the host; the state after it is taken off the script -/
  | host (a : HostAccess) (s : State)

/-- Take the next move off the host's script (R26, R35, R226). -/
def takeMove (s : State) : NextMove :=
  match s.script with
  | [] => .idle
  | .issue cmd :: rest => if halted s then .idle else .command cmd { s with script := rest }
  | .access a :: rest => .host a { s with script := rest }

end Sys2Proof.Machine
end

