-- ==== Sys2Proof/Machine/ByteLane.lean ====
section
/-! DEFINITION. The Byte Lane Algebra (spec/43_byte_lane_algebra.md R150 to R168). -/

namespace Sys2Proof.Machine

/-- `b[rd] <- P` and the command is complete: what every command of the family ends with (R26, R168). -/
def finishB (s : State) (rd : Reg) (p : Pair) : Result := .next (complete (setB s rd p))

/-- BAND (R151). -/
def execBand (rd ra rb : Reg) (s : State) : Result := finishB s rd ((getB s ra).and (getB s rb))

/-- BOR (R152). -/
def execBor (rd ra rb : Reg) (s : State) : Result := finishB s rd ((getB s ra).or (getB s rb))

/-- BXOR (R153). -/
def execBxor (rd ra rb : Reg) (s : State) : Result := finishB s rd ((getB s ra).xor (getB s rb))

/-- BMASK (R154): the byte in each of the 8 byte lanes. The test `k >= NMASK` is the decoder's (R94) and stands here too,
as in the pseudocode of R154. -/
def execBmask (rd : Reg) (k : BitVec 4) (s : State) : Result :=
  match maskByte s k with
  | some m => finishB s rd (.ofLanes fun _ => m)
  | none => .next (takeFault .illegalCommand (encode (.bmask rd k)) s)

/-- BSHL (R155, R157 to R159; R165 for the other grain). -/
def execBshl (rd ra : Reg) (n : BitVec 5) (s : State) : Result :=
  finishB s rd ((getB s ra).shiftLeft s.params.grain n.toNat)

/-- BSHR (R156 to R159; R165 for the other grain). -/
def execBshr (rd ra : Reg) (n : BitVec 5) (s : State) : Result :=
  finishB s rd ((getB s ra).shiftRight s.params.grain n.toNat)

end Sys2Proof.Machine
end

