-- ==== Sys2Proof/Machine/LaneVector.lean ====
section
/-! DEFINITION. The Lane Vector Algebra (spec/41_lane_vector_algebra.md R110 to R124): total, no flags, no faults. -/

namespace Sys2Proof.Machine

/-- `v[rd] <- P` and the command is complete: what every command of the family ends with (R26, R124). -/
def finishV (s : State) (rd : Reg) (p : Pair) : Result := .next (complete (setV s rd p))

/-- VZERO (R111). -/
def execVzero (rd : Reg) (s : State) : Result := finishV s rd .zero

/-- VONES (R112). -/
def execVones (rd : Reg) (s : State) : Result := finishV s rd .ones

/-- VAND (R113). -/
def execVand (rd ra rb : Reg) (s : State) : Result := finishV s rd ((getV s ra).and (getV s rb))

/-- VOR (R114). -/
def execVor (rd ra rb : Reg) (s : State) : Result := finishV s rd ((getV s ra).or (getV s rb))

/-- VXOR (R115). -/
def execVxor (rd ra rb : Reg) (s : State) : Result := finishV s rd ((getV s ra).xor (getV s rb))

/-- VNOT (R116). -/
def execVnot (rd ra : Reg) (s : State) : Result := finishV s rd (getV s ra).not

end Sys2Proof.Machine
end

