-- ==== Sys2Proof/Machine/Sync.lean ====
section
/-! DEFINITION. The synchronization stub (spec/44_sync.md R180 to R182). -/

namespace Sys2Proof.Machine

/-- SYNC (R180): nothing happens; the host's index moves on. -/
def execSync (s : State) : Result := .next (complete s)

end Sys2Proof.Machine
end

