-- ==== Sys2Proof/Machine/TableCodec.lean ====
section
/-! DEFINITION. The Table Codec (spec/42_table_codec.md R130 to R141). A fault records the word of the command,
which is `encode` of it (log 10). -/

namespace Sys2Proof.Machine

/-- TLOAD (R131). -/
def execTload (r : Reg) (slot : BitVec 12) (s : State) : Result :=
  if slotInRange s slot then .next (complete (setV s r (readSlot s slot)))
  else .next (takeFault .slotRange (encode (.tload r slot)) s)

/-- TSTORE (R132). -/
def execTstore (r : Reg) (slot : BitVec 12) (s : State) : Result :=
  if slotInRange s slot then .next (complete (writeSlot s slot (getV s r)))
  else .next (takeFault .slotRange (encode (.tstore r slot)) s)

/-- TACCX (R133 to R137): all three checks before any access. -/
def execTaccx (cnt : BitVec 4) (slot : BitVec 12) (obase : BitVec 10) (s : State) : Result :=
  match taccxCheck s cnt slot obase with
  | some cause => .next (takeFault cause (encode (.taccx cnt slot obase)) s)
  | none => .next (complete (accumulate s (slotAddr slot) obase.toNat cnt.toNat))

end Sys2Proof.Machine
end

