-- ==== Sys2Proof/Machine/Dispatch.lean ====
section
/-! DEFINITION. One arm per command (spec/30_encoding.md R85): what the unit does with a command it has accepted. -/

namespace Sys2Proof.Machine

def exec (i : Instr) (s : State) : Host.Outcome State Fault Refusal :=
  match i with
  | .vzero rd => Sys2Proof.Machine.execVzero rd s
  | .vones rd => Sys2Proof.Machine.execVones rd s
  | .vand rd ra rb => Sys2Proof.Machine.execVand rd ra rb s
  | .vor rd ra rb => Sys2Proof.Machine.execVor rd ra rb s
  | .vxor rd ra rb => Sys2Proof.Machine.execVxor rd ra rb s
  | .vnot rd ra => Sys2Proof.Machine.execVnot rd ra s
  | .tload r slot => Sys2Proof.Machine.execTload r slot s
  | .tstore r slot => Sys2Proof.Machine.execTstore r slot s
  | .taccx cnt slot obase => Sys2Proof.Machine.execTaccx cnt slot obase s
  | .band rd ra rb => Sys2Proof.Machine.execBand rd ra rb s
  | .bor rd ra rb => Sys2Proof.Machine.execBor rd ra rb s
  | .bxor rd ra rb => Sys2Proof.Machine.execBxor rd ra rb s
  | .bmask rd k => Sys2Proof.Machine.execBmask rd k s
  | .bshl rd ra n => Sys2Proof.Machine.execBshl rd ra n s
  | .bshr rd ra n => Sys2Proof.Machine.execBshr rd ra n s
  | .sync => Sys2Proof.Machine.execSync s

end Sys2Proof.Machine
end

