-- ==== Sys2Proof/Machine/HostPort.lean ====
section
/-! DEFINITION. The host's interactions other than issuing a command (spec/10_state.md R36, R37 to R41;
spec/70_reset_and_hazards.md R220, R226). Reset is the only way out of a fault (spec/60_exceptions.md R204). -/

namespace Sys2Proof.Machine

/-- Reset (R220): control state 0, every register a free value and not written, memories and parameters untouched. A
reset starts a new run, so the host's index starts at 0 again (R26; log 11). -/
def hostReset (s : State) : State :=
  { s with
    v := regFile (Config.vAtReset (s.resets + 1))
    b := regFile (Config.bAtReset (s.resets + 1))
    vWritten := noneWritten
    bWritten := noneWritten
    status := 0x00#8
    fcmd := 0x00000000#32
    pc := 0
    resets := s.resets + 1 }

/-- A write through the host register port: the V file, the B file, and nothing for the control registers and the
reserved selector (R36). -/
def hostWriteReg (sel : BitVec 2) (idx : Reg) (data : BitVec 64) (s : State) : State :=
  match sel.toNat with
  | 0 => setV s idx (.ofBits64 data)
  | 1 => setB s idx (.ofBits64 data)
  | _ => s

/-- A control register as the host reads it: 0 is `STATUS`, 1 is `FCMD`, the others read 0 (R36). -/
def hostReadControl (idx : Reg) (s : State) : BitVec 64 :=
  match idx.toNat with
  | 0 => (statusWord s).setWidth 64
  | 1 => s.fcmd.setWidth 64
  | _ => 0#64

/-- `hr_rdata` of a read through the host register port (R36). -/
def hostReadReg (sel : BitVec 2) (idx : Reg) (s : State) : BitVec 64 :=
  match sel.toNat with
  | 0 => (getV s idx).bits64
  | 1 => (getB s idx).bits64
  | 2 => hostReadControl idx s
  | _ => 0#64

/-- The host has read something (log 13). -/
def reply (r : HostReply) (s : State) : State := { s with replies := r :: s.replies }

/-- The number of bytes of a space (R59). -/
def spaceSize (s : State) (space : Space) : Nat :=
  match space with
  | .tab => 8 * s.params.tabSlots
  | .out => s.params.outBytes

/-- A byte of a space (R14). -/
def readByte (s : State) (space : Space) (a : Nat) : Byte :=
  match space with
  | .tab => readTab s a
  | .out => readOut s a

/-- Writing a byte of a space (R14). -/
def writeByte (s : State) (space : Space) (a : Nat) (x : Byte) : State :=
  match space with
  | .tab => writeTab s a x
  | .out => writeOut s a x

/-- One interaction of the host (R226). It acts between commands only (R228; log 9). A byte address the space does not
have stops the model (log 12). -/
def hostAccess (a : HostAccess) (s : State) : Result :=
  match a with
  | .reset => .next (hostReset s)
  | .writeReg sel idx data => .next (hostWriteReg sel idx data s)
  | .readReg sel idx => .next (reply (.data (hostReadReg sel idx s)) s)
  | .writeByte space addr x =>
    if addr < spaceSize s space then .next (writeByte s space addr x) else .fault (.noSuchByte space addr)
  | .readByte space addr =>
    if addr < spaceSize s space then .next (reply (.byte (readByte s space addr)) s)
    else .fault (.noSuchByte space addr)
  | .watchFault => .next (reply (.level (faultOut s)) s)

end Sys2Proof.Machine
end

