-- ==== Sys2Proof/Machine/Step.lean ====
section
/-! DEFINITION. One step: the host's next move, and for a command the unit's whole execution of it
(spec/20_memory.md R58, spec/70_reset_and_hazards.md R240). -/

namespace Sys2Proof.Machine

/-- One step. With nothing to do the state stays (log 8). -/
def step (s : State) : Host.Outcome State Fault Refusal :=
  match takeMove s with
  | .idle => .next s
  | .command cmd t =>
    match decode t.params.nmask cmd with
    | .ok i => exec i t
    | .error _ => .next (illegalCommand cmd t)
  | .host a t => hostAccess a t

/-- The state whose next step presents the 32-bit word `w` to the unit: the unit has no fetch, so the word stands at the
head of the host's script (R26; log 7). -/
def State.withFetchWord (s : State) (_nbits w : Nat) : State :=
  { s with script := .issue (BitVec.ofNat 32 w) :: s.script }

end Sys2Proof.Machine
end

