-- ==== Sys2Proof/Safety.lean ====
section
/-! DEFINITION. The terms claims are made in: the invariant of the machine, what a command leaves unchanged, what a
disciplined program does (spec/70_reset_and_hazards.md R236), runs and their end (R230), and what agreement of two states
means. -/

namespace Sys2Proof.Machine

/-- `STATUS` is legal (R28): bits 3:1 are 0, `FAULT` = 1 exactly when `CAUSE` is not 0, and `CAUSE` is 0 to 4. -/
abbrev StatusLegal (s : State) : Prop :=
  s.status &&& 0x0E#8 = 0#8 ∧ (faultBit s = true ↔ causeField s ≠ 0#4) ∧ (causeField s).toNat ≤ 4

/-- Every listed address is one of the first `size`, each is listed once, and they rise (R59). -/
abbrev MemoryLegal (m : List Host.Cell) (size : Nat) : Prop := Memory.wf m ∧ ∀ c ∈ m, c.1 < size

/-- The invariant of the machine: parameters in their ranges (R8), a legal `STATUS` (R28), `FCMD` = 0 while no fault has
been taken (R29), and two memories in canonical form that list only addresses of their space (R59). -/
abbrev Inv (s : State) : Prop :=
  s.params.Valid ∧ StatusLegal s ∧ (faultBit s = false → s.fcmd = 0#32) ∧
    MemoryLegal s.tab (8 * s.params.tabSlots) ∧ MemoryLegal s.out s.params.outBytes

/-! ### What two states have in common -/

/-- The same V file, as contents and as written marks. -/
def SameV (s t : State) : Prop := ∀ q, getV t q = getV s q ∧ writtenV t q = writtenV s q

/-- The same B file, as contents and as written marks. -/
def SameB (s t : State) : Prop := ∀ q, getB t q = getB s q ∧ writtenB t q = writtenB s q

/-- Every byte of TAB reads the same. -/
def SameTab (s t : State) : Prop := ∀ a, readTab t a = readTab s a

/-- Every byte of OUT reads the same. -/
def SameOut (s t : State) : Prop := ∀ a, readOut t a = readOut s a

/-- The same control registers (R28, R29). -/
def SameControl (s t : State) : Prop := t.status = s.status ∧ t.fcmd = s.fcmd

/-- The same parameters, host script, replies and reset count. -/
def SameHost (s t : State) : Prop :=
  t.params = s.params ∧ t.script = s.script ∧ t.replies = s.replies ∧ t.resets = s.resets

/-- From `s` to `t` only `v[rd]`, its written mark and the host's index may change. -/
def OnlyV (rd : Reg) (s t : State) : Prop :=
  (∀ q, q ≠ rd → getV t q = getV s q ∧ writtenV t q = writtenV s q) ∧
    SameB s t ∧ SameTab s t ∧ SameOut s t ∧ SameControl s t ∧ SameHost s t

/-- From `s` to `t` only `b[rd]`, its written mark and the host's index may change. -/
def OnlyB (rd : Reg) (s t : State) : Prop :=
  (∀ q, q ≠ rd → getB t q = getB s q ∧ writtenB t q = writtenB s q) ∧
    SameV s t ∧ SameTab s t ∧ SameOut s t ∧ SameControl s t ∧ SameHost s t

/-- From `s` to `t` only the 8 TAB bytes of the slot and the host's index may change. -/
def OnlySlot (slot : BitVec 12) (s t : State) : Prop :=
  (∀ a, ¬(slotAddr slot ≤ a ∧ a < slotAddr slot + 8) → readTab t a = readTab s a) ∧
    SameV s t ∧ SameB s t ∧ SameOut s t ∧ SameControl s t ∧ SameHost s t

/-- From `s` to `t` only the `n` OUT bytes from `obase` and the host's index may change. -/
def OnlyOut (obase n : Nat) (s t : State) : Prop :=
  (∀ a, ¬(obase ≤ a ∧ a < obase + n) → readOut t a = readOut s a) ∧
    SameV s t ∧ SameB s t ∧ SameTab s t ∧ SameControl s t ∧ SameHost s t

/-- From `s` to `t` only the host's index may change. -/
def OnlyIndex (s t : State) : Prop :=
  SameV s t ∧ SameB s t ∧ SameTab s t ∧ SameOut s t ∧ SameControl s t ∧ SameHost s t

/-- From `s` to `t` the fault entry of R200 with cause `c` and command word `cmd`, and nothing else: the host's index
stays at the faulting command (R201). -/
def FaultTaken (c : Cause) (cmd : Word) (s t : State) : Prop :=
  faultBit t = true ∧ causeField t = c.code ∧ t.status &&& 0x0E#8 = 0#8 ∧ t.fcmd = cmd ∧
    SameV s t ∧ SameB s t ∧ SameTab s t ∧ SameOut s t ∧ SameHost s t ∧ t.pc = s.pc

/-! ### Families and sequences of commands -/

/-- The six commands of the Lane Vector Algebra. -/
def isLaneVector (i : Instr) : Bool :=
  match i with
  | .vzero _ | .vones _ | .vand _ _ _ | .vor _ _ _ | .vxor _ _ _ | .vnot _ _ => true
  | .tload _ _ | .tstore _ _ | .taccx _ _ _ | .band _ _ _ | .bor _ _ _ | .bxor _ _ _ | .bmask _ _
  | .bshl _ _ _ | .bshr _ _ _ | .sync => false

/-- The commands executed one after another, up to the first stop of the model. -/
def runInstrs (is : List Instr) (s : State) : Result :=
  match is with
  | [] => .next s
  | i :: is =>
    match exec i s with
    | .next t => runInstrs is t
    | .fault f => .fault f
    | .refused r => .refused r

/-! ### Discipline (R236) -/

/-- R236 item 1: every register the command reads counts as written. -/
def sourcesWritten (i : Instr) (s : State) : Bool :=
  match i with
  | .vzero _ => true
  | .vones _ => true
  | .vand _ ra rb => writtenV s ra && writtenV s rb
  | .vor _ ra rb => writtenV s ra && writtenV s rb
  | .vxor _ ra rb => writtenV s ra && writtenV s rb
  | .vnot _ ra => writtenV s ra
  | .tload _ _ => true
  | .tstore r _ => writtenV s r
  | .taccx _ _ _ => true
  | .band _ ra rb => writtenB s ra && writtenB s rb
  | .bor _ ra rb => writtenB s ra && writtenB s rb
  | .bxor _ ra rb => writtenB s ra && writtenB s rb
  | .bmask _ _ => true
  | .bshl _ ra _ => writtenB s ra
  | .bshr _ ra _ => writtenB s ra
  | .sync => true

/-- Something has written each of the `n` bytes from `base`. -/
def allListed (m : List Host.Cell) (base n : Nat) : Bool :=
  (List.range n).all fun j => (Memory.read m (base + j)).isSome

/-- R236 item 2: every byte of TAB and OUT the command reads has been written. -/
def bytesWritten (i : Instr) (s : State) : Bool :=
  match i with
  | .tload _ slot => allListed s.tab (slotAddr slot) 8
  | .taccx cnt slot obase =>
    allListed s.tab (slotAddr slot) cnt.toNat && allListed s.out obase.toNat cnt.toNat
  | .vzero _ | .vones _ | .vand _ _ _ | .vor _ _ _ | .vxor _ _ _ | .vnot _ _ | .tstore _ _
  | .band _ _ _ | .bor _ _ _ | .bxor _ _ _ | .bmask _ _ | .bshl _ _ _ | .bshr _ _ _ | .sync => true

/-- R236 item 3, and R91 for BMASK: the command takes no fault. -/
def inRange (i : Instr) (s : State) : Bool :=
  match i with
  | .tload _ slot => slotInRange s slot
  | .tstore _ slot => slotInRange s slot
  | .taccx cnt slot obase => (taccxCheck s cnt slot obase).isNone
  | .bmask _ k => decide (k.toNat < s.params.nmask)
  | .vzero _ | .vones _ | .vand _ _ _ | .vor _ _ _ | .vxor _ _ _ | .vnot _ _
  | .band _ _ _ | .bor _ _ _ | .bxor _ _ _ | .bshl _ _ _ | .bshr _ _ _ | .sync => true

/-- The command obeys items 1 to 3 of R236 in the state: its result is defined by the spec alone. -/
def disciplined (i : Instr) (s : State) : Bool := sourcesWritten i s && bytesWritten i s && inRange i s

/-- The state `t` agrees with `s` on everything `s` counts as written (R25; spec/93 U1, U2): `t` may hold anything in the
registers that do not count as written in `s`, and in the TAB and OUT bytes that nothing has written in `s`. -/
def AgreeOnWritten (s t : State) : Prop :=
  (∀ q, writtenV t q = writtenV s q) ∧ (∀ q, writtenB t q = writtenB s q) ∧
    (∀ q, writtenV s q = true → getV t q = getV s q) ∧ (∀ q, writtenB s q = true → getB t q = getB s q) ∧
    (∀ a, (Memory.read s.tab a).isSome → readTab t a = readTab s a) ∧
    (∀ a, (Memory.read s.out a).isSome → readOut t a = readOut s a) ∧
    SameControl s t ∧ SameHost s t ∧ t.pc = s.pc

/-! ### Runs of a program (R26, R230) -/

/-- The command words among some moves of the host, in order. -/
def wordsOf (moves : List HostMove) : List Word :=
  match moves with
  | [] => []
  | .issue cmd :: moves => cmd :: wordsOf moves
  | .access _ :: moves => wordsOf moves

/-- The moves before the next reset. A reset ends what the host was doing and starts a new run (log 11). -/
def untilReset (moves : List HostMove) : List HostMove :=
  match moves with
  | [] => []
  | .access .reset :: _ => []
  | m :: moves => m :: untilReset moves

/-- The command words the current run has still to present. -/
def wordsLeft (s : State) : List Word := wordsOf (untilReset s.script)

/-- The start of a run of the program (R26, R230): nothing presented yet, no fault, and the host will present the words of
the program in order. Between them it may do anything R229 lets it do. -/
abbrev BeginsRun (prog : List Word) (s : State) : Prop := s.pc = 0 ∧ faultBit s = false ∧ wordsLeft s = prog

/-- Some number of steps, none of them a reset, leads from one state to the other. -/
inductive Reaches : State → State → Prop where
  /-- no step -/
  | refl (s : State) : Reaches s s
  /-- one step more at the end -/
  | snoc {s t u : State} (h : Reaches s t) (hr : ∀ rest, t.script ≠ .access .reset :: rest) (hs : step t = .next u) :
    Reaches s u

/-- `t` is a state of the run of the program from the start state `s` (R230). -/
abbrev InRun (prog : List Word) (s t : State) : Prop := BeginsRun prog s ∧ Reaches s t

/-- In a state of a run: the run has completed (R230). Every command word has been presented and has completed, so the host's
index is the program's length, and no fault has been taken. -/
def runCompleted (prog : List Word) (t : State) : Bool := decide (t.pc = prog.length) && !faultBit t

/-- In a state of a run: the run has failed (R230). A command has raised a fault, and the host's index is its index. -/
def runFaulted (prog : List Word) (t : State) : Bool := faultBit t && decide (prog[t.pc]? = some t.fcmd)

/-- In a state of a run: the run is over (R26). -/
def runOver (prog : List Word) (t : State) : Bool := decide (t.pc = prog.length) || faultBit t

end Sys2Proof.Machine
end

