-- ==== Sys2Proof/Certificates/Slice0/Obligations.lean ====
section
/-! DEFINITION. The statements for the provers, from the numbered rules of spec/. A statement about a command says for
every state and every operand that `exec` answers a next state, what that state holds, and that nothing else changed
(the frames OnlyV, OnlyB, OnlySlot, OnlyOut, OnlyIndex and FaultTaken of Safety.lean). A statement about a step says it
of a state whose script presents a command word to a unit that is not halted. The script, that a word accepted is taken off
it, and the list of what the host has read are the model's form of the host (logs 7, 13) and of no rule. -/

open Sys2Proof Sys2Proof.Machine

/-! ### Encoding (spec/30_encoding.md) -/

/-- R82, R85, R94: decoding the word of a well-formed command gives the command back, every field at every value. -/
def Obligations.DecodeOfEncodeIsTheCommand : Prop :=
  ∀ (nmask : Nat) (i : Instr), wellFormed nmask i = true → decode nmask (encode i) = .ok i

/-- R82, R93: a word that decodes is the word of the command it decodes to, and that command is well formed. -/
def Obligations.EncodeOfDecodedIsTheWord : Prop :=
  ∀ (nmask : Nat) (cmd : Word) (i : Instr), decode nmask cmd = .ok i → encode i = cmd ∧ wellFormed nmask i = true

/-- R85 with the field positions of R82: a word is the command of a row exactly when it has the row's fixed bits (and,
for BMASK, `k < NMASK`), and its operands are the row's fields. -/
def Obligations.OpcodeTableMatchesAndFields : Prop :=
  ∀ (nmask : Nat) (cmd : Word),
    (∀ rd, decode nmask cmd = .ok (.vzero rd) ↔
      cmd &&& 0xFC3FFFFF#32 = 0x04000000#32 ∧ rd = cmd.extractLsb' 22 4) ∧
    (∀ rd, decode nmask cmd = .ok (.vones rd) ↔
      cmd &&& 0xFC3FFFFF#32 = 0x08000000#32 ∧ rd = cmd.extractLsb' 22 4) ∧
    (∀ rd ra rb, decode nmask cmd = .ok (.vand rd ra rb) ↔
      cmd &&& 0xFC003FFF#32 = 0x0C000000#32 ∧ rd = cmd.extractLsb' 22 4 ∧ ra = cmd.extractLsb' 18 4 ∧ rb = cmd.extractLsb' 14 4) ∧
    (∀ rd ra rb, decode nmask cmd = .ok (.vor rd ra rb) ↔
      cmd &&& 0xFC003FFF#32 = 0x10000000#32 ∧ rd = cmd.extractLsb' 22 4 ∧ ra = cmd.extractLsb' 18 4 ∧ rb = cmd.extractLsb' 14 4) ∧
    (∀ rd ra rb, decode nmask cmd = .ok (.vxor rd ra rb) ↔
      cmd &&& 0xFC003FFF#32 = 0x14000000#32 ∧ rd = cmd.extractLsb' 22 4 ∧ ra = cmd.extractLsb' 18 4 ∧ rb = cmd.extractLsb' 14 4) ∧
    (∀ rd ra, decode nmask cmd = .ok (.vnot rd ra) ↔
      cmd &&& 0xFC03FFFF#32 = 0x18000000#32 ∧ rd = cmd.extractLsb' 22 4 ∧ ra = cmd.extractLsb' 18 4) ∧
    (∀ r slot, decode nmask cmd = .ok (.tload r slot) ↔
      cmd &&& 0xFC0003FF#32 = 0x44000000#32 ∧ r = cmd.extractLsb' 22 4 ∧ slot = cmd.extractLsb' 10 12) ∧
    (∀ r slot, decode nmask cmd = .ok (.tstore r slot) ↔
      cmd &&& 0xFC0003FF#32 = 0x48000000#32 ∧ r = cmd.extractLsb' 22 4 ∧ slot = cmd.extractLsb' 10 12) ∧
    (∀ cnt slot obase, decode nmask cmd = .ok (.taccx cnt slot obase) ↔
      cmd &&& 0xFC000000#32 = 0x4C000000#32 ∧ cnt = cmd.extractLsb' 22 4 ∧ slot = cmd.extractLsb' 10 12 ∧ obase = cmd.extractLsb' 0 10) ∧
    (∀ rd ra rb, decode nmask cmd = .ok (.band rd ra rb) ↔
      cmd &&& 0xFC003FFF#32 = 0x84000000#32 ∧ rd = cmd.extractLsb' 22 4 ∧ ra = cmd.extractLsb' 18 4 ∧ rb = cmd.extractLsb' 14 4) ∧
    (∀ rd ra rb, decode nmask cmd = .ok (.bor rd ra rb) ↔
      cmd &&& 0xFC003FFF#32 = 0x88000000#32 ∧ rd = cmd.extractLsb' 22 4 ∧ ra = cmd.extractLsb' 18 4 ∧ rb = cmd.extractLsb' 14 4) ∧
    (∀ rd ra rb, decode nmask cmd = .ok (.bxor rd ra rb) ↔
      cmd &&& 0xFC003FFF#32 = 0x8C000000#32 ∧ rd = cmd.extractLsb' 22 4 ∧ ra = cmd.extractLsb' 18 4 ∧ rb = cmd.extractLsb' 14 4) ∧
    (∀ rd k, decode nmask cmd = .ok (.bmask rd k) ↔
      cmd &&& 0xFC03FFFF#32 = 0x90000000#32 ∧ k.toNat < nmask ∧ rd = cmd.extractLsb' 22 4 ∧ k = cmd.extractLsb' 18 4) ∧
    (∀ rd ra n, decode nmask cmd = .ok (.bshl rd ra n) ↔
      cmd &&& 0xFC001FFF#32 = 0x94000000#32 ∧ rd = cmd.extractLsb' 22 4 ∧ ra = cmd.extractLsb' 18 4 ∧ n = cmd.extractLsb' 13 5) ∧
    (∀ rd ra n, decode nmask cmd = .ok (.bshr rd ra n) ↔
      cmd &&& 0xFC001FFF#32 = 0x98000000#32 ∧ rd = cmd.extractLsb' 22 4 ∧ ra = cmd.extractLsb' 18 4 ∧ n = cmd.extractLsb' 13 5) ∧
    (decode nmask cmd = .ok (.sync) ↔
      cmd &&& 0xFFFFFFFF#32 = 0xC4000000#32)

/-- R85, R111 to R116, R131 to R133, R151 to R156, R180: the example word each command's rule prints decodes to it. -/
def Obligations.ExampleWordsDecode : Prop :=
  decode 1 0x04400000#32 = .ok (.vzero 1) ∧ decode 1 0x08000000#32 = .ok (.vones 0) ∧
    decode 1 0x0C804000#32 = .ok (.vand 2 0 1) ∧ decode 1 0x10C04000#32 = .ok (.vor 3 0 1) ∧
    decode 1 0x15004000#32 = .ok (.vxor 4 0 1) ∧ decode 1 0x19400000#32 = .ok (.vnot 5 0) ∧
    decode 1 0x44400400#32 = .ok (.tload 1 1) ∧ decode 1 0x48000000#32 = .ok (.tstore 0 0) ∧
    decode 1 0x4CC00001#32 = .ok (.taccx 3 0 1) ∧ decode 1 0x84804000#32 = .ok (.band 2 0 1) ∧
    decode 1 0x88804000#32 = .ok (.bor 2 0 1) ∧ decode 1 0x8C804000#32 = .ok (.bxor 2 0 1) ∧
    decode 1 0x90400000#32 = .ok (.bmask 1 0) ∧ decode 1 0x94C82000#32 = .ok (.bshl 3 2 1) ∧
    decode 1 0x99948000#32 = .ok (.bshr 6 5 4) ∧ decode 1 0xC4000000#32 = .ok .sync

/-- R86: a word with one of the 48 reserved opcodes, whatever its other bits, takes ILLEGAL_COMMAND. -/
def Obligations.ReservedOpcodesAreIllegal : Prop :=
  ∀ (s : State) (cmd : Word) (rest : List HostMove) (op : Nat), s.script = .issue cmd :: rest → halted s = false →
    op = (cmd.extractLsb' 26 6).toNat →
    (op = 0x00 ∨ (0x07 ≤ op ∧ op ≤ 0x10) ∨ (0x14 ≤ op ∧ op ≤ 0x20) ∨ (0x27 ≤ op ∧ op ≤ 0x30) ∨
      (0x32 ≤ op ∧ op ≤ 0x3F)) →
    ∃ t, step s = .next t ∧ FaultTaken .illegalCommand cmd { s with script := rest } t

/-- R90: a word with an assigned opcode and a `zero` field that is not all 0 takes ILLEGAL_COMMAND. -/
def Obligations.ReservedBitsAreIllegal : Prop :=
  ∀ (s : State) (cmd : Word) (rest : List HostMove) (op : Nat), s.script = .issue cmd :: rest → halted s = false →
    op = (cmd.extractLsb' 26 6).toNat →
    (op = 0x31 ∧ cmd.extractLsb' 0 26 ≠ 0#26 ∨
      (op = 0x01 ∨ op = 0x02) ∧ cmd.extractLsb' 0 22 ≠ 0#22 ∨
      (op = 0x06 ∨ op = 0x24) ∧ cmd.extractLsb' 0 18 ≠ 0#18 ∨
      (op = 0x03 ∨ op = 0x04 ∨ op = 0x05 ∨ op = 0x21 ∨ op = 0x22 ∨ op = 0x23) ∧ cmd.extractLsb' 0 14 ≠ 0#14 ∨
      (op = 0x25 ∨ op = 0x26) ∧ cmd.extractLsb' 0 13 ≠ 0#13 ∨
      (op = 0x11 ∨ op = 0x12) ∧ cmd.extractLsb' 0 10 ≠ 0#10) →
    ∃ t, step s = .next t ∧ FaultTaken .illegalCommand cmd { s with script := rest } t

/-- R91: a BMASK with `k >= NMASK` takes ILLEGAL_COMMAND; with NMASK = 0 every BMASK does; with NMASK = 16 every `k`
is legal. -/
def Obligations.MissingMaskIsIllegal : Prop :=
  (∀ (s : State) (cmd : Word) (rest : List HostMove), s.script = .issue cmd :: rest → halted s = false →
    cmd.extractLsb' 26 6 = 0x24#6 →
    (s.params.nmask ≤ (cmd.extractLsb' 18 4).toNat ∨ s.params.nmask = 0) →
    ∃ t, step s = .next t ∧ FaultTaken .illegalCommand cmd { s with script := rest } t) ∧
  ∀ rd k, decode 16 (encode (.bmask rd k)) = .ok (.bmask rd k)

/-- R92: a TACCX with `cnt` 9 to 15 decodes and then takes COUNT_RANGE; a `slot` or `obase` out of range decodes and then
takes SLOT_RANGE or OUT_RANGE, in TLOAD and TSTORE as in TACCX. -/
def Obligations.OutOfRangeFieldsDecodeThenFault : Prop :=
  ∀ (s : State) (rest : List HostMove), halted s = false →
    (∀ cnt slot obase, s.script = .issue (encode (.taccx cnt slot obase)) :: rest →
      decode s.params.nmask (encode (.taccx cnt slot obase)) = .ok (.taccx cnt slot obase) ∧
      (9 ≤ cnt.toNat → ∃ t, step s = .next t ∧
        FaultTaken .countRange (encode (.taccx cnt slot obase)) { s with script := rest } t) ∧
      (cnt.toNat ≤ 8 → s.params.tabSlots ≤ slot.toNat → ∃ t, step s = .next t ∧
        FaultTaken .slotRange (encode (.taccx cnt slot obase)) { s with script := rest } t) ∧
      (cnt.toNat ≤ 8 → slot.toNat < s.params.tabSlots → s.params.outBytes < obase.toNat + cnt.toNat →
        ∃ t, step s = .next t ∧
        FaultTaken .outRange (encode (.taccx cnt slot obase)) { s with script := rest } t)) ∧
    (∀ r slot, s.script = .issue (encode (.tload r slot)) :: rest → s.params.tabSlots ≤ slot.toNat →
      decode s.params.nmask (encode (.tload r slot)) = .ok (.tload r slot) ∧
      ∃ t, step s = .next t ∧ FaultTaken .slotRange (encode (.tload r slot)) { s with script := rest } t) ∧
    (∀ r slot, s.script = .issue (encode (.tstore r slot)) :: rest → s.params.tabSlots ≤ slot.toNat →
      decode s.params.nmask (encode (.tstore r slot)) = .ok (.tstore r slot) ∧
      ∃ t, step s = .next t ∧ FaultTaken .slotRange (encode (.tstore r slot)) { s with script := rest } t)

/-! ### The step -/

/-- R26, R35, R94: a step whose command word decodes to a command is `exec` of that command, on the state with the word taken
off the host's script. `step` adds nothing else; `exec` moves the host's index. -/
def Obligations.StepRunsTheDecodedCommand : Prop :=
  ∀ (s : State) (cmd : Word) (rest : List HostMove) (i : Instr), s.script = .issue cmd :: rest → halted s = false →
    decode s.params.nmask cmd = .ok i → step s = exec i { s with script := rest }

/-- R93, R200, R201: every command word presented to a unit that is not halted either completes, moving the host's index
on and leaving STATUS and FCMD, or takes one fault that records that word and changes nothing else. -/
def Obligations.EveryWordCompletesOrFaultsPrecisely : Prop :=
  ∀ (s : State) (cmd : Word) (rest : List HostMove), s.script = .issue cmd :: rest → halted s = false →
    ∃ t, step s = .next t ∧ t.script = rest ∧
      ((∃ i, decode s.params.nmask cmd = .ok i ∧ exec i { s with script := rest } = .next t ∧
          t.pc = s.pc + 1 ∧ SameControl s t) ∨
        ∃ c, FaultTaken c cmd { s with script := rest } t)

/-! ### The Lane Vector Algebra (spec/41_lane_vector_algebra.md) -/

/-- R111: the effect, the encoding and the example word. -/
def Obligations.VzeroWritesTheZeroVector : Prop :=
  (∀ (s : State) (rd : Reg), ∃ t, exec (.vzero rd) s = .next t ∧
    getV t rd = ⟨0x00000000#32, 0x00000000#32⟩ ∧ (∀ l, l < 64 → (getV t rd).lane l = false) ∧
    writtenV t rd = true ∧ t.pc = s.pc + 1 ∧ OnlyV rd s t) ∧
  (∀ rd, encode (.vzero rd) &&& 0xFC3FFFFF#32 = 0x04000000#32) ∧ encode (.vzero 1) = 0x04400000#32

/-- R112: the effect, the encoding and the example word. -/
def Obligations.VonesWritesTheOnesVector : Prop :=
  (∀ (s : State) (rd : Reg), ∃ t, exec (.vones rd) s = .next t ∧
    getV t rd = ⟨0xFFFFFFFF#32, 0xFFFFFFFF#32⟩ ∧ (∀ l, l < 64 → (getV t rd).lane l = true) ∧
    writtenV t rd = true ∧ t.pc = s.pc + 1 ∧ OnlyV rd s t) ∧
  (∀ rd, encode (.vones rd) &&& 0xFC3FFFFF#32 = 0x08000000#32) ∧ encode (.vones 0) = 0x08000000#32

/-- R113: the effect for every choice of registers, a destination that is a source included, the encoding and the example. -/
def Obligations.VandIsAndOnEveryLane : Prop :=
  (∀ (s : State) (rd ra rb : Reg), ∃ t, exec (.vand rd ra rb) s = .next t ∧
    getV t rd = ⟨(getV s ra).lo &&& (getV s rb).lo, (getV s ra).hi &&& (getV s rb).hi⟩ ∧
    (∀ l, l < 64 → (getV t rd).lane l = ((getV s ra).lane l && (getV s rb).lane l)) ∧
    writtenV t rd = true ∧ t.pc = s.pc + 1 ∧ OnlyV rd s t) ∧
  (∀ rd ra rb, encode (.vand rd ra rb) &&& 0xFC003FFF#32 = 0x0C000000#32) ∧
  encode (.vand 2 0 1) = 0x0C804000#32 ∧
  ∀ s : State, getV s 0 = ⟨0x0F0F3355#32, 0xDEADBEEF#32⟩ → getV s 1 = ⟨0x00FF5A5A#32, 0x12345678#32⟩ →
    ∃ t, exec (.vand 2 0 1) s = .next t ∧ getV t 2 = ⟨0x000F1250#32, 0x12241668#32⟩

/-- R114: the effect for every choice of registers, a destination that is a source included, the encoding and the example. -/
def Obligations.VorIsOrOnEveryLane : Prop :=
  (∀ (s : State) (rd ra rb : Reg), ∃ t, exec (.vor rd ra rb) s = .next t ∧
    getV t rd = ⟨(getV s ra).lo ||| (getV s rb).lo, (getV s ra).hi ||| (getV s rb).hi⟩ ∧
    (∀ l, l < 64 → (getV t rd).lane l = ((getV s ra).lane l || (getV s rb).lane l)) ∧
    writtenV t rd = true ∧ t.pc = s.pc + 1 ∧ OnlyV rd s t) ∧
  (∀ rd ra rb, encode (.vor rd ra rb) &&& 0xFC003FFF#32 = 0x10000000#32) ∧
  encode (.vor 3 0 1) = 0x10C04000#32 ∧
  ∀ s : State, getV s 0 = ⟨0x0F0F3355#32, 0xDEADBEEF#32⟩ → getV s 1 = ⟨0x00FF5A5A#32, 0x12345678#32⟩ →
    ∃ t, exec (.vor 3 0 1) s = .next t ∧ getV t 3 = ⟨0x0FFF7B5F#32, 0xDEBDFEFF#32⟩

/-- R115: the effect for every choice of registers, a destination that is a source included, the encoding and the example. -/
def Obligations.VxorIsXorOnEveryLane : Prop :=
  (∀ (s : State) (rd ra rb : Reg), ∃ t, exec (.vxor rd ra rb) s = .next t ∧
    getV t rd = ⟨(getV s ra).lo ^^^ (getV s rb).lo, (getV s ra).hi ^^^ (getV s rb).hi⟩ ∧
    (∀ l, l < 64 → (getV t rd).lane l = ((getV s ra).lane l ^^ (getV s rb).lane l)) ∧
    writtenV t rd = true ∧ t.pc = s.pc + 1 ∧ OnlyV rd s t) ∧
  (∀ rd ra rb, encode (.vxor rd ra rb) &&& 0xFC003FFF#32 = 0x14000000#32) ∧
  encode (.vxor 4 0 1) = 0x15004000#32 ∧
  ∀ s : State, getV s 0 = ⟨0x0F0F3355#32, 0xDEADBEEF#32⟩ → getV s 1 = ⟨0x00FF5A5A#32, 0x12345678#32⟩ →
    ∃ t, exec (.vxor 4 0 1) s = .next t ∧ getV t 4 = ⟨0x0FF0690F#32, 0xCC99E897#32⟩

/-- R116: the effect, the encoding and the example. -/
def Obligations.VnotIsComplementOnEveryLane : Prop :=
  (∀ (s : State) (rd ra : Reg), ∃ t, exec (.vnot rd ra) s = .next t ∧
    getV t rd = ⟨~~~(getV s ra).lo, ~~~(getV s ra).hi⟩ ∧
    (getV t rd).lo.toNat = 0xFFFFFFFF - (getV s ra).lo.toNat ∧
    (getV t rd).hi.toNat = 0xFFFFFFFF - (getV s ra).hi.toNat ∧
    (∀ l, l < 64 → (getV t rd).lane l = !(getV s ra).lane l) ∧
    writtenV t rd = true ∧ t.pc = s.pc + 1 ∧ OnlyV rd s t) ∧
  (∀ rd ra, encode (.vnot rd ra) &&& 0xFC03FFFF#32 = 0x18000000#32) ∧ encode (.vnot 5 0) = 0x19400000#32 ∧
  ∀ s : State, getV s 0 = ⟨0x0F0F3355#32, 0xDEADBEEF#32⟩ →
    ∃ t, exec (.vnot 5 0) s = .next t ∧ getV t 5 = ⟨0xF0F0CCAA#32, 0x21524110#32⟩

/-- R110, R117: each lane of a result is the truth table of R110 applied to that lane of the sources, and to nothing
else: two states that agree on the lane in the sources agree on it in the result; the constants have no source. The
tables are the spec's own, from general knowledge (log 18). -/
def Obligations.LanesFollowTheTruthTables : Prop :=
  ∀ (s s' : State) (rd ra rb : Reg) (l : Nat) (x y : Bool), l < 64 →
    (getV s ra).lane l = x → (getV s' ra).lane l = x → (getV s rb).lane l = y → (getV s' rb).lane l = y →
    (∃ t t', exec (.vand rd ra rb) s = .next t ∧ exec (.vand rd ra rb) s' = .next t' ∧
      (getV t rd).lane l = (match x, y with
        | false, false => false | false, true => false | true, false => false | true, true => true) ∧
      (getV t' rd).lane l = (getV t rd).lane l) ∧
    (∃ t t', exec (.vor rd ra rb) s = .next t ∧ exec (.vor rd ra rb) s' = .next t' ∧
      (getV t rd).lane l = (match x, y with
        | false, false => false | false, true => true | true, false => true | true, true => true) ∧
      (getV t' rd).lane l = (getV t rd).lane l) ∧
    (∃ t t', exec (.vxor rd ra rb) s = .next t ∧ exec (.vxor rd ra rb) s' = .next t' ∧
      (getV t rd).lane l = (match x, y with
        | false, false => false | false, true => true | true, false => true | true, true => false) ∧
      (getV t' rd).lane l = (getV t rd).lane l) ∧
    (∃ t t', exec (.vnot rd ra) s = .next t ∧ exec (.vnot rd ra) s' = .next t' ∧
      (getV t rd).lane l = (match x with | false => true | true => false) ∧
      (getV t' rd).lane l = (getV t rd).lane l) ∧
    (∃ t t', exec (.vzero rd) s = .next t ∧ exec (.vzero rd) s' = .next t' ∧
      (getV t rd).lane l = false ∧ (getV t' rd).lane l = false) ∧
    (∃ t t', exec (.vones rd) s = .next t ∧ exec (.vones rd) s' = .next t' ∧
      (getV t rd).lane l = true ∧ (getV t' rd).lane l = true)

/-- R118, R119, as commands, with a second register for the complement or the constant. -/
def Obligations.ComplementAndIdentityLaws : Prop :=
  ∀ (s : State) (a u : Reg), u ≠ a →
    (∃ t, runInstrs [.vnot u a, .vand u a u] s = .next t ∧ getV t u = Pair.zero) ∧
    (∃ t, runInstrs [.vxor u a a] s = .next t ∧ getV t u = Pair.zero) ∧
    (∃ t, runInstrs [.vzero u, .vor u a u] s = .next t ∧ getV t u = getV s a) ∧
    (∃ t, runInstrs [.vones u, .vand u a u] s = .next t ∧ getV t u = getV s a)

/-- R120: De Morgan's law of the source and its dual (the dual is the spec's own inference), as commands. -/
def Obligations.DeMorganLaws : Prop :=
  ∀ (s : State) (a b u w : Reg), u ≠ a → u ≠ b → w ≠ a → w ≠ b → w ≠ u →
    (∃ t t', runInstrs [.vand u a b, .vnot u u] s = .next t ∧
      runInstrs [.vnot u a, .vnot w b, .vor u u w] s = .next t' ∧ getV t u = getV t' u) ∧
    (∃ t t', runInstrs [.vor u a b, .vnot u u] s = .next t ∧
      runInstrs [.vnot u a, .vnot w b, .vand u u w] s = .next t' ∧ getV t u = getV t' u)

/-- R121: AND, OR and XOR are commutative and associative, as commands. -/
def Obligations.CommutativeAndAssociativeLaws : Prop :=
  ∀ (op : Reg → Reg → Reg → Instr), (op = .vand ∨ op = .vor ∨ op = .vxor) → ∀ (s : State) (a b c u : Reg),
    (∃ t t', exec (op u a b) s = .next t ∧ exec (op u b a) s = .next t' ∧ getV t u = getV t' u) ∧
    (u ≠ a → u ≠ c → ∃ t t', runInstrs [op u a b, op u u c] s = .next t ∧ runInstrs [op u b c, op u a u] s = .next t' ∧
      getV t u = getV t' u)

/-- R122: the equivalence identity, as commands: xor(and(a,b), and(not(a), not(b))) is not(xor(a,b)). -/
def Obligations.EquivalenceIdentity : Prop :=
  ∀ (s : State) (a b u w x : Reg), u ≠ a → u ≠ b → w ≠ a → w ≠ b → w ≠ u → x ≠ a → x ≠ b → x ≠ u → x ≠ w →
    ∃ t t', runInstrs [.vand u a b, .vnot w a, .vnot x b, .vand w w x, .vxor u u w] s = .next t ∧
      runInstrs [.vxor u a b, .vnot u u] s = .next t' ∧ getV t u = getV t' u

/-- R123 (the spec's own inference): a straight-line program of the family computes, in every lane of every start state, one
and the same boolean function of that lane of the registers, and changes no part of the state but the V file. -/
def Obligations.ProgramsComputeOneFunctionPerLane : Prop :=
  ∀ is : List Instr, (∀ i ∈ is, isLaneVector i = true) →
    ∃ f : (Reg → Bool) → (Reg → Bool), ∀ s : State, ∃ t, runInstrs is s = .next t ∧
      (∀ l, l < 64 → (fun r => (getV t r).lane l) = f (fun r => (getV s r).lane l)) ∧
      SameB s t ∧ SameTab s t ∧ SameOut s t ∧ SameControl s t ∧ SameHost s t ∧ t.pc = s.pc + is.length

/-! ### The Table Codec (spec/42_table_codec.md) -/

/-- R131: in range the 8 bytes of the slot are loaded and nothing else changes; out of range SLOT_RANGE and nothing else. -/
def Obligations.TloadLoadsTheSlot : Prop :=
  (∀ (s : State) (r : Reg) (slot : BitVec 12), slot.toNat < s.params.tabSlots →
    ∃ t, exec (.tload r slot) s = .next t ∧
      (getV t r).lo.toNat = (readTab s (8 * slot.toNat)).toNat + (readTab s (8 * slot.toNat + 1)).toNat * 2 ^ 8 +
        (readTab s (8 * slot.toNat + 2)).toNat * 2 ^ 16 + (readTab s (8 * slot.toNat + 3)).toNat * 2 ^ 24 ∧
      (getV t r).hi.toNat = (readTab s (8 * slot.toNat + 4)).toNat + (readTab s (8 * slot.toNat + 5)).toNat * 2 ^ 8 +
        (readTab s (8 * slot.toNat + 6)).toNat * 2 ^ 16 + (readTab s (8 * slot.toNat + 7)).toNat * 2 ^ 24 ∧
      writtenV t r = true ∧ t.pc = s.pc + 1 ∧ OnlyV r s t) ∧
  (∀ (s : State) (r : Reg) (slot : BitVec 12), s.params.tabSlots ≤ slot.toNat →
    ∃ t, exec (.tload r slot) s = .next t ∧ FaultTaken .slotRange (encode (.tload r slot)) s t) ∧
  (∀ r slot, encode (.tload r slot) &&& 0xFC0003FF#32 = 0x44000000#32) ∧ encode (.tload 1 1) = 0x44400400#32 ∧
  ∀ s : State, 1 < s.params.tabSlots → readTab s 8 = 0x5A → readTab s 9 = 0x5A → readTab s 10 = 0xFF →
    readTab s 11 = 0x00 → readTab s 12 = 0x78 → readTab s 13 = 0x56 → readTab s 14 = 0x34 → readTab s 15 = 0x12 →
    ∃ t, exec (.tload 1 1) s = .next t ∧ getV t 1 = ⟨0x00FF5A5A#32, 0x12345678#32⟩

/-- R132: in range the 8 bytes of the slot become the byte lanes of the pair and nothing else changes; out of range
SLOT_RANGE and nothing else. -/
def Obligations.TstoreStoresTheSlot : Prop :=
  (∀ (s : State) (r : Reg) (slot : BitVec 12), slot.toNat < s.params.tabSlots →
    ∃ t, exec (.tstore r slot) s = .next t ∧
      (∀ j, j < 8 → readTab t (slotAddr slot + j) = (getV s r).bits64.extractLsb' (8 * j) 8) ∧
      slotAddr slot = 8 * slot.toNat ∧ t.pc = s.pc + 1 ∧ OnlySlot slot s t) ∧
  (∀ (s : State) (r : Reg) (slot : BitVec 12), s.params.tabSlots ≤ slot.toNat →
    ∃ t, exec (.tstore r slot) s = .next t ∧ FaultTaken .slotRange (encode (.tstore r slot)) s t) ∧
  (∀ r slot, encode (.tstore r slot) &&& 0xFC0003FF#32 = 0x48000000#32) ∧ encode (.tstore 0 0) = 0x48000000#32 ∧
  ∀ s : State, 0 < s.params.tabSlots → getV s 0 = ⟨0x0F0F3355#32, 0xDEADBEEF#32⟩ →
    ∃ t, exec (.tstore 0 0) s = .next t ∧ readTab t 0 = 0x55 ∧ readTab t 1 = 0x33 ∧ readTab t 2 = 0x0F ∧
      readTab t 3 = 0x0F ∧ readTab t 4 = 0xEF ∧ readTab t 5 = 0xBE ∧ readTab t 6 = 0xAD ∧ readTab t 7 = 0xDE

/-- R133, R137: with all three fields in range the first `cnt` bytes of the slot are XORed positionally into OUT, and
nothing else changes; with one out of range a fault is taken. -/
def Obligations.TaccxAccumulatesPositionally : Prop :=
  (∀ (s : State) (cnt : BitVec 4) (slot : BitVec 12) (obase : BitVec 10), cnt.toNat ≤ 8 →
    slot.toNat < s.params.tabSlots → obase.toNat + cnt.toNat ≤ s.params.outBytes →
    ∃ t, exec (.taccx cnt slot obase) s = .next t ∧
      (∀ j, j < cnt.toNat →
        readOut t (obase.toNat + j) = readOut s (obase.toNat + j) ^^^ readTab s (8 * slot.toNat + j)) ∧
      t.pc = s.pc + 1 ∧ OnlyOut obase.toNat cnt.toNat s t) ∧
  (∀ (s : State) (cnt : BitVec 4) (slot : BitVec 12) (obase : BitVec 10),
    (8 < cnt.toNat ∨ s.params.tabSlots ≤ slot.toNat ∨ s.params.outBytes < obase.toNat + cnt.toNat) →
    ∃ t c, exec (.taccx cnt slot obase) s = .next t ∧ FaultTaken c (encode (.taccx cnt slot obase)) s t) ∧
  (∀ cnt slot obase, encode (.taccx cnt slot obase) &&& 0xFC000000#32 = 0x4C000000#32) ∧
  encode (.taccx 3 0 1) = 0x4CC00001#32 ∧
  ∀ s : State, 0 < s.params.tabSlots → 4 ≤ s.params.outBytes →
    readTab s 0 = 0x55 → readTab s 1 = 0x33 → readTab s 2 = 0x0F →
    readOut s 0 = 0x11 → readOut s 1 = 0x22 → readOut s 2 = 0x33 → readOut s 3 = 0x44 → readOut s 4 = 0x55 →
    ∃ t, exec (.taccx 3 0 1) s = .next t ∧ readOut t 0 = 0x11 ∧ readOut t 1 = 0x77 ∧ readOut t 2 = 0x00 ∧
      readOut t 3 = 0x4B ∧ readOut t 4 = 0x55

/-- R134, R192, R194: the three checks of TACCX in their order; the first that fails gives the fault, and the command does
nothing else. -/
def Obligations.TaccxChecksInOrder : Prop :=
  ∀ (s : State) (cnt : BitVec 4) (slot : BitVec 12) (obase : BitVec 10), ∃ t, exec (.taccx cnt slot obase) s = .next t ∧
    if 8 < cnt.toNat then FaultTaken .countRange (encode (.taccx cnt slot obase)) s t
    else if s.params.tabSlots ≤ slot.toNat then FaultTaken .slotRange (encode (.taccx cnt slot obase)) s t
    else if s.params.outBytes < obase.toNat + cnt.toNat then FaultTaken .outRange (encode (.taccx cnt slot obase)) s t
    else t.pc = s.pc + 1 ∧ SameControl s t

/-- R135: TACCX with `cnt` = 0 still makes the second and third check, and then reads and writes nothing. -/
def Obligations.TaccxOfNoBytes : Prop :=
  ∀ (s : State) (slot : BitVec 12) (obase : BitVec 10), ∃ t, exec (.taccx 0 slot obase) s = .next t ∧
    if s.params.tabSlots ≤ slot.toNat then FaultTaken .slotRange (encode (.taccx 0 slot obase)) s t
    else if s.params.outBytes < obase.toNat then FaultTaken .outRange (encode (.taccx 0 slot obase)) s t
    else t.pc = s.pc + 1 ∧ OnlyIndex s t

/-- R51: the slot layout, byte by byte, in both directions. -/
def Obligations.SlotLayout : Prop :=
  (∀ (s : State) (r : Reg) (slot : BitVec 12), slot.toNat < s.params.tabSlots →
    ∃ t, exec (.tstore r slot) s = .next t ∧
      readTab t (8 * slot.toNat + 0) = (getV s r).lo.extractLsb' 0 8 ∧
      readTab t (8 * slot.toNat + 1) = (getV s r).lo.extractLsb' 8 8 ∧
      readTab t (8 * slot.toNat + 2) = (getV s r).lo.extractLsb' 16 8 ∧
      readTab t (8 * slot.toNat + 3) = (getV s r).lo.extractLsb' 24 8 ∧
      readTab t (8 * slot.toNat + 4) = (getV s r).hi.extractLsb' 0 8 ∧
      readTab t (8 * slot.toNat + 5) = (getV s r).hi.extractLsb' 8 8 ∧
      readTab t (8 * slot.toNat + 6) = (getV s r).hi.extractLsb' 16 8 ∧
      readTab t (8 * slot.toNat + 7) = (getV s r).hi.extractLsb' 24 8 ∧
      ∀ j, j < 8 → readTab t (8 * slot.toNat + j) = (getV s r).bits64.extractLsb' (8 * j) 8) ∧
  ∀ (s : State) (r : Reg) (slot : BitVec 12), slot.toNat < s.params.tabSlots →
    ∃ t, exec (.tload r slot) s = .next t ∧
      (getV t r).lo.extractLsb' 0 8 = readTab s (8 * slot.toNat + 0) ∧
      (getV t r).lo.extractLsb' 8 8 = readTab s (8 * slot.toNat + 1) ∧
      (getV t r).lo.extractLsb' 16 8 = readTab s (8 * slot.toNat + 2) ∧
      (getV t r).lo.extractLsb' 24 8 = readTab s (8 * slot.toNat + 3) ∧
      (getV t r).hi.extractLsb' 0 8 = readTab s (8 * slot.toNat + 4) ∧
      (getV t r).hi.extractLsb' 8 8 = readTab s (8 * slot.toNat + 5) ∧
      (getV t r).hi.extractLsb' 16 8 = readTab s (8 * slot.toNat + 6) ∧
      (getV t r).hi.extractLsb' 24 8 = readTab s (8 * slot.toNat + 7) ∧
      ∀ j, j < 8 → (getV t r).bits64.extractLsb' (8 * j) 8 = readTab s (8 * slot.toNat + j)

/-- R52 (the spec's own inference): lane L of a stored LaneVector is bit L mod 8 of byte L div 8 of its slot. -/
def Obligations.LanesOfSlotBytes : Prop :=
  ∀ (s : State) (r : Reg) (slot : BitVec 12) (l : Nat), slot.toNat < s.params.tabSlots → l < 64 →
    ∃ t, exec (.tstore r slot) s = .next t ∧
      (readTab t (8 * slot.toNat + l / 8)).getLsbD (l % 8) = (getV s r).lane l

/-- R139: a second TACCX with the same fields, with no write to the slot's or the buffer's bytes between, cancels the
first: OUT is as before. `u` is any state between the two commands. -/
def Obligations.TaccxTwiceCancels : Prop :=
  ∀ (s : State) (cnt : BitVec 4) (slot : BitVec 12) (obase : BitVec 10), cnt.toNat ≤ 8 →
    slot.toNat < s.params.tabSlots → obase.toNat + cnt.toNat ≤ s.params.outBytes →
    ∃ t, exec (.taccx cnt slot obase) s = .next t ∧
      ∀ u : State, u.params = t.params → (∀ a, readOut u a = readOut t a) →
        (∀ j, j < 8 → readTab u (8 * slot.toNat + j) = readTab t (8 * slot.toNat + j)) →
        ∃ w, exec (.taccx cnt slot obase) u = .next w ∧ ∀ a, readOut w a = readOut s a

/-- R140: TSTORE then TLOAD of the slot, with no write to the slot between, gives exactly the pair stored. `u` is any state
between the two commands. -/
def Obligations.LoadAfterStoreIsTheIdentity : Prop :=
  ∀ (s : State) (ra rb : Reg) (slot : BitVec 12), slot.toNat < s.params.tabSlots →
    ∃ t, exec (.tstore ra slot) s = .next t ∧
      ∀ u : State, u.params = t.params →
        (∀ j, j < 8 → readTab u (8 * slot.toNat + j) = readTab t (8 * slot.toNat + j)) →
        ∃ w, exec (.tload rb slot) u = .next w ∧ getV w rb = getV s ra

/-! ### The Byte Lane Algebra (spec/43_byte_lane_algebra.md) -/

/-- R151: the effect for every choice of registers, a destination that is a source included, the encoding and the example. -/
def Obligations.BandIsAndOnEveryByteLane : Prop :=
  (∀ (s : State) (rd ra rb : Reg), ∃ t, exec (.band rd ra rb) s = .next t ∧
    getB t rd = ⟨(getB s ra).lo &&& (getB s rb).lo, (getB s ra).hi &&& (getB s rb).hi⟩ ∧
    (∀ i, i < 8 → (getB t rd).blane i = (getB s ra).blane i &&& (getB s rb).blane i) ∧
    writtenB t rd = true ∧ t.pc = s.pc + 1 ∧ OnlyB rd s t) ∧
  (∀ rd ra rb, encode (.band rd ra rb) &&& 0xFC003FFF#32 = 0x84000000#32) ∧
  encode (.band 2 0 1) = 0x84804000#32 ∧
  ∀ s : State, getB s 0 = ⟨0x12345678#32, 0x9ABCDEF0#32⟩ → getB s 1 = ⟨0x0F0F0F0F#32, 0xF0F0F0F0#32⟩ →
    ∃ t, exec (.band 2 0 1) s = .next t ∧ getB t 2 = ⟨0x02040608#32, 0x90B0D0F0#32⟩

/-- R152: the effect for every choice of registers, a destination that is a source included, the encoding and the example. -/
def Obligations.BorIsOrOnEveryByteLane : Prop :=
  (∀ (s : State) (rd ra rb : Reg), ∃ t, exec (.bor rd ra rb) s = .next t ∧
    getB t rd = ⟨(getB s ra).lo ||| (getB s rb).lo, (getB s ra).hi ||| (getB s rb).hi⟩ ∧
    (∀ i, i < 8 → (getB t rd).blane i = (getB s ra).blane i ||| (getB s rb).blane i) ∧
    writtenB t rd = true ∧ t.pc = s.pc + 1 ∧ OnlyB rd s t) ∧
  (∀ rd ra rb, encode (.bor rd ra rb) &&& 0xFC003FFF#32 = 0x88000000#32) ∧
  encode (.bor 2 0 1) = 0x88804000#32 ∧
  ∀ s : State, getB s 0 = ⟨0x12345678#32, 0x9ABCDEF0#32⟩ → getB s 1 = ⟨0x0F0F0F0F#32, 0xF0F0F0F0#32⟩ →
    ∃ t, exec (.bor 2 0 1) s = .next t ∧ getB t 2 = ⟨0x1F3F5F7F#32, 0xFAFCFEF0#32⟩

/-- R153: the effect for every choice of registers, a destination that is a source included, the encoding and the example. -/
def Obligations.BxorIsXorOnEveryByteLane : Prop :=
  (∀ (s : State) (rd ra rb : Reg), ∃ t, exec (.bxor rd ra rb) s = .next t ∧
    getB t rd = ⟨(getB s ra).lo ^^^ (getB s rb).lo, (getB s ra).hi ^^^ (getB s rb).hi⟩ ∧
    (∀ i, i < 8 → (getB t rd).blane i = (getB s ra).blane i ^^^ (getB s rb).blane i) ∧
    writtenB t rd = true ∧ t.pc = s.pc + 1 ∧ OnlyB rd s t) ∧
  (∀ rd ra rb, encode (.bxor rd ra rb) &&& 0xFC003FFF#32 = 0x8C000000#32) ∧
  encode (.bxor 2 0 1) = 0x8C804000#32 ∧
  ∀ s : State, getB s 0 = ⟨0x12345678#32, 0x9ABCDEF0#32⟩ → getB s 1 = ⟨0x0F0F0F0F#32, 0xF0F0F0F0#32⟩ →
    ∃ t, exec (.bxor 2 0 1) s = .next t ∧ getB t 2 = ⟨0x1D3B5977#32, 0x6A4C2E00#32⟩

/-- R154: with `k < NMASK` the byte stands in all 8 byte lanes and nothing else changes; otherwise ILLEGAL_COMMAND. -/
def Obligations.BmaskRepeatsItsByte : Prop :=
  (∀ (s : State) (rd : Reg) (k : BitVec 4), k.toNat < s.params.nmask →
    ∃ m t, s.params.masks[k.toNat]? = some m ∧ exec (.bmask rd k) s = .next t ∧
      getB t rd = ⟨m.setWidth 32 * 0x01010101#32, m.setWidth 32 * 0x01010101#32⟩ ∧
      (∀ i, i < 8 → (getB t rd).blane i = m) ∧
      writtenB t rd = true ∧ t.pc = s.pc + 1 ∧ OnlyB rd s t) ∧
  (∀ (s : State) (rd : Reg) (k : BitVec 4), s.params.nmask ≤ k.toNat →
    ∃ t, exec (.bmask rd k) s = .next t ∧ FaultTaken .illegalCommand (encode (.bmask rd k)) s t) ∧
  (∀ rd k, encode (.bmask rd k) &&& 0xFC03FFFF#32 = 0x90000000#32) ∧ encode (.bmask 1 0) = 0x90400000#32 ∧
  ∀ s : State, s.params.masks[0]? = some 0x29#8 →
    ∃ t, exec (.bmask 1 0) s = .next t ∧ getB t 1 = ⟨0x29292929#32, 0x29292929#32⟩

/-- R155, with SHIFT_GRAIN = 32: the effect for every amount, the encoding and the example. -/
def Obligations.BshlShiftsEachWordLeft : Prop :=
  (∀ (s : State) (rd ra : Reg) (n : BitVec 5), s.params.grain = .word → ∃ t, exec (.bshl rd ra n) s = .next t ∧
    getB t rd = ⟨(getB s ra).lo <<< n.toNat, (getB s ra).hi <<< n.toNat⟩ ∧
    (getB t rd).lo.toNat = (getB s ra).lo.toNat * 2 ^ n.toNat % 2 ^ 32 ∧
    (getB t rd).hi.toNat = (getB s ra).hi.toNat * 2 ^ n.toNat % 2 ^ 32 ∧
    writtenB t rd = true ∧ t.pc = s.pc + 1 ∧ OnlyB rd s t) ∧
  (∀ rd ra n, encode (.bshl rd ra n) &&& 0xFC001FFF#32 = 0x94000000#32) ∧ encode (.bshl 3 2 1) = 0x94C82000#32 ∧
  ∀ s : State, s.params.grain = .word → getB s 2 = ⟨0x80402901#32, 0xFF0180C3#32⟩ →
    ∃ t, exec (.bshl 3 2 1) s = .next t ∧ getB t 3 = ⟨0x00805202#32, 0xFE030186#32⟩

/-- R156, with SHIFT_GRAIN = 32: the effect for every amount, the encoding and the example. -/
def Obligations.BshrShiftsEachWordRight : Prop :=
  (∀ (s : State) (rd ra : Reg) (n : BitVec 5), s.params.grain = .word → ∃ t, exec (.bshr rd ra n) s = .next t ∧
    getB t rd = ⟨(getB s ra).lo >>> n.toNat, (getB s ra).hi >>> n.toNat⟩ ∧
    (getB t rd).lo.toNat = (getB s ra).lo.toNat / 2 ^ n.toNat ∧
    (getB t rd).hi.toNat = (getB s ra).hi.toNat / 2 ^ n.toNat ∧
    writtenB t rd = true ∧ t.pc = s.pc + 1 ∧ OnlyB rd s t) ∧
  (∀ rd ra n, encode (.bshr rd ra n) &&& 0xFC001FFF#32 = 0x98000000#32) ∧ encode (.bshr 6 5 4) = 0x99948000#32 ∧
  ∀ s : State, s.params.grain = .word → getB s 5 = ⟨0x80402901#32, 0xFF0180C3#32⟩ →
    ∃ t, exec (.bshr 6 5 4) s = .next t ∧ getB t 6 = ⟨0x08040290#32, 0x0FF0180C#32⟩

/-- R157: what the two shifts do with SHIFT_GRAIN = 32, bit by bit and byte lane by byte lane. `X s ra w` is the rule's X:
the byte lanes of word `w` of the operand, 0x00 outside 0 to 3. -/
def Obligations.ShiftsBitByBitAndLaneByLane : Prop :=
  ∀ (s : State) (rd ra : Reg) (n : BitVec 5) (X : Nat → Int → Byte), s.params.grain = .word →
    (∀ w t, X w t = if 0 ≤ t ∧ t ≤ 3 then (getB s ra).blane (4 * w + t.toNat) else 0x00#8) →
    (∃ t, exec (.bshl rd ra n) s = .next t ∧
      (∀ i, i < 32 → (getB t rd).lo.getLsbD i = (if n.toNat ≤ i then (getB s ra).lo.getLsbD (i - n.toNat) else false)) ∧
      (∀ i, i < 32 → (getB t rd).hi.getLsbD i = (if n.toNat ≤ i then (getB s ra).hi.getLsbD (i - n.toNat) else false)) ∧
      ∀ w q : Nat, w < 2 → q < 4 → (getB t rd).blane (4 * w + q) =
        (X w ((q : Int) - (n.toNat / 8 : Nat)) <<< (n.toNat % 8)) |||
          (X w ((q : Int) - (n.toNat / 8 : Nat) - 1) >>> (8 - n.toNat % 8))) ∧
    (∃ t, exec (.bshr rd ra n) s = .next t ∧
      (∀ i, i < 32 →
        (getB t rd).lo.getLsbD i = (if i + n.toNat ≤ 31 then (getB s ra).lo.getLsbD (i + n.toNat) else false)) ∧
      (∀ i, i < 32 →
        (getB t rd).hi.getLsbD i = (if i + n.toNat ≤ 31 then (getB s ra).hi.getLsbD (i + n.toNat) else false)) ∧
      ∀ w q : Nat, w < 2 → q < 4 → (getB t rd).blane (4 * w + q) =
        (X w ((q : Int) + (n.toNat / 8 : Nat)) >>> (n.toNat % 8)) |||
          (X w ((q : Int) + (n.toNat / 8 : Nat) + 1) <<< (8 - n.toNat % 8)))

/-- R158: the shift amounts 0 and 31, with SHIFT_GRAIN = 32, and the whole byte lanes that 8, 16 and 24 move. -/
def Obligations.ShiftAmountsAtTheEnds : Prop :=
  ∀ (s : State) (rd ra : Reg), s.params.grain = .word →
    (∃ t, exec (.bshl rd ra 0) s = .next t ∧ getB t rd = getB s ra) ∧
    (∃ t, exec (.bshr rd ra 0) s = .next t ∧ getB t rd = getB s ra) ∧
    (∃ t, exec (.bshl rd ra 31) s = .next t ∧ ∀ i, i < 32 →
      (getB t rd).lo.getLsbD i = (i == 31 && (getB s ra).lo.getLsbD 0) ∧
      (getB t rd).hi.getLsbD i = (i == 31 && (getB s ra).hi.getLsbD 0)) ∧
    (∃ t, exec (.bshr rd ra 31) s = .next t ∧ ∀ i, i < 32 →
      (getB t rd).lo.getLsbD i = (i == 0 && (getB s ra).lo.getLsbD 31) ∧
      (getB t rd).hi.getLsbD i = (i == 0 && (getB s ra).hi.getLsbD 31)) ∧
    ∀ (k : Nat) (n : BitVec 5), 1 ≤ k → k ≤ 3 → n.toNat = 8 * k →
      (∃ t, exec (.bshl rd ra n) s = .next t ∧ ∀ w q, w < 2 → q < 4 →
        (getB t rd).blane (4 * w + q) = if k ≤ q then (getB s ra).blane (4 * w + (q - k)) else 0x00#8) ∧
      (∃ t, exec (.bshr rd ra n) s = .next t ∧ ∀ w q, w < 2 → q < 4 →
        (getB t rd).blane (4 * w + q) = if q + k < 4 then (getB s ra).blane (4 * w + (q + k)) else 0x00#8)

/-- R159 for SHIFT_GRAIN = 32, and what follows from R165 for SHIFT_GRAIN = 8: no bit passes between the two words of the pair,
for either shift and any amount, and nothing comes back in at the other end of a word. That the grain is a parameter of the
model is its own choice (log 3). -/
def Obligations.NoBitPassesBetweenTheWords : Prop :=
  (∀ (s s' : State) (rd ra : Reg) (n : BitVec 5), s'.params.grain = s.params.grain →
    ∀ i, (i = Instr.bshl rd ra n ∨ i = Instr.bshr rd ra n) →
      ∃ t t', exec i s = .next t ∧ exec i s' = .next t' ∧
        ((getB s ra).lo = (getB s' ra).lo → (getB t rd).lo = (getB t' rd).lo) ∧
        ((getB s ra).hi = (getB s' ra).hi → (getB t rd).hi = (getB t' rd).hi)) ∧
  ∀ (s : State) (rd ra : Reg) (n : BitVec 5),
    (∃ t, exec (.bshl rd ra n) s = .next t ∧ ∀ l, l < n.toNat →
      (getB t rd).lo.getLsbD l = false ∧ (getB t rd).hi.getLsbD l = false) ∧
    (∃ t, exec (.bshr rd ra n) s = .next t ∧ ∀ l, l < n.toNat →
      (getB t rd).lo.getLsbD (31 - l) = false ∧ (getB t rd).hi.getLsbD (31 - l) = false)

/-- R160, under either grain (R165 for the grain 8): shifts by m and then by n are the shift by m + n while m + n is at most
31, a shift of zero is zero, a shift by 0 is the identity; the law for BSHR is the spec's own inference. That the grain is a
parameter of the model is its own choice (log 3). -/
def Obligations.ShiftsCompose : Prop :=
  ∀ (s : State) (rd ra : Reg) (m n k : BitVec 5), m.toNat + n.toNat = k.toNat →
    (∃ t t', runInstrs [.bshl rd ra m, .bshl rd rd n] s = .next t ∧ exec (.bshl rd ra k) s = .next t' ∧
      getB t rd = getB t' rd) ∧
    (∃ t t', runInstrs [.bshr rd ra m, .bshr rd rd n] s = .next t ∧ exec (.bshr rd ra k) s = .next t' ∧
      getB t rd = getB t' rd) ∧
    (∃ t t', exec (.bshl rd ra 0) s = .next t ∧ exec (.bshr rd ra 0) s = .next t' ∧
      getB t rd = getB s ra ∧ getB t' rd = getB s ra) ∧
    (getB s ra = Pair.zero → ∃ t t', exec (.bshl rd ra n) s = .next t ∧ exec (.bshr rd ra n) s = .next t' ∧
      getB t rd = Pair.zero ∧ getB t' rd = Pair.zero)

/-- R165, the reading the spec did not take: with SHIFT_GRAIN = 8 (log 3) each byte lane is shifted inside its own 8 bits, and
nothing else changes. -/
def Obligations.ByteGrainShiftsStayInTheirLane : Prop :=
  ∀ (s : State) (rd ra : Reg) (n : BitVec 5), s.params.grain = .byteLane →
    (∃ t, exec (.bshl rd ra n) s = .next t ∧
      (∀ i, i < 8 → (getB t rd).blane i = if n.toNat ≤ 7 then (getB s ra).blane i <<< n.toNat else 0x00#8) ∧
      writtenB t rd = true ∧ t.pc = s.pc + 1 ∧ OnlyB rd s t) ∧
    (∃ t, exec (.bshr rd ra n) s = .next t ∧
      (∀ i, i < 8 → (getB t rd).blane i = if n.toNat ≤ 7 then (getB s ra).blane i >>> n.toNat else 0x00#8) ∧
      writtenB t rd = true ∧ t.pc = s.pc + 1 ∧ OnlyB rd s t)

/-- R166 (the spec's own inference): where the two grains give the same result. `s` and `s'` are two states that differ in
the grain, a parameter of the model by its own choice (log 3), and hold the same operand. -/
def Obligations.GrainsAgreeOnMaskedOperands : Prop :=
  ∀ (s s' : State) (rd ra : Reg) (n : BitVec 5), s.params.grain = .word → s'.params.grain = .byteLane →
    getB s' ra = getB s ra →
    (∃ t t', exec (.bshl rd ra n) s = .next t ∧ exec (.bshl rd ra n) s' = .next t' ∧
      (getB t rd = getB t' rd ↔
        if n.toNat ≤ 7 then ∀ i, i ∈ [0, 1, 2, 4, 5, 6] → (getB s ra).blane i >>> (8 - n.toNat) = 0x00#8
        else getB t rd = Pair.zero ∧ getB t' rd = Pair.zero)) ∧
    (∃ t t', exec (.bshr rd ra n) s = .next t ∧ exec (.bshr rd ra n) s' = .next t' ∧
      (getB t rd = getB t' rd ↔
        if n.toNat ≤ 7 then ∀ i, i ∈ [1, 2, 3, 5, 6, 7] → (getB s ra).blane i &&& BitVec.ofNat 8 (2 ^ n.toNat - 1) = 0x00#8
        else getB t rd = Pair.zero ∧ getB t' rd = Pair.zero))

/-- R161: the laws of R118, R119 and R121 that use only AND, OR and XOR, for the byte lanes. The zero and the all-0xFF vector
stand in any register that holds them. -/
def Obligations.ByteLaneLaws : Prop :=
  (∀ (op : Reg → Reg → Reg → Instr), (op = .band ∨ op = .bor ∨ op = .bxor) → ∀ (s : State) (a b c u : Reg),
    (∃ t t', exec (op u a b) s = .next t ∧ exec (op u b a) s = .next t' ∧ getB t u = getB t' u) ∧
    (u ≠ a → u ≠ c → ∃ t t', runInstrs [op u a b, op u u c] s = .next t ∧ runInstrs [op u b c, op u a u] s = .next t' ∧
      getB t u = getB t' u)) ∧
  ∀ (s : State) (a z u : Reg),
    (∃ t, exec (.bxor u a a) s = .next t ∧ ∀ i, i < 8 → (getB t u).blane i = 0x00#8) ∧
    ((∀ i, i < 8 → (getB s z).blane i = 0x00#8) → ∃ t, exec (.bor u a z) s = .next t ∧ getB t u = getB s a) ∧
    ((∀ i, i < 8 → (getB s z).blane i = 0xFF#8) → ∃ t, exec (.band u a z) s = .next t ∧ getB t u = getB s a)

/-! ### The synchronization stub (spec/44_sync.md) -/

/-- R180: SYNC changes nothing, only the host's index advances; the one word that is SYNC. -/
def Obligations.SyncDoesNothing : Prop :=
  (∀ s : State, ∃ t, exec .sync s = .next t ∧ OnlyIndex s t ∧ t.pc = s.pc + 1) ∧
  (∀ (nmask : Nat) (cmd : Word), decode nmask cmd = .ok .sync ↔ cmd = 0xC4000000#32) ∧
  ∀ (nmask : Nat) (cmd : Word), cmd.extractLsb' 26 6 = 0x31#6 → cmd.extractLsb' 0 26 ≠ 0#26 →
    decode nmask cmd = .error .reservedBits

/-! ### Faults (spec/60_exceptions.md) -/

/-- R190, R195: exactly the commands with a field out of range fault when executed. A well-formed command of the two algebras
and SYNC never do. -/
def Obligations.OnlyOutOfRangeFieldsFault : Prop :=
  ∀ (i : Instr) (s : State), ∃ t, exec i s = .next t ∧
    (if inRange i s then t.pc = s.pc + 1 ∧ SameControl s t ∧ SameHost s t
      else ∃ c, FaultTaken c (encode i) s t) ∧
    (isLaneVector i = true → inRange i s = true)

/-- R202: the halted unit accepts no command, nothing but a reset changes STATUS or FCMD, and nothing but the host's own
writes changes a register or a byte. -/
def Obligations.HaltedUnitAcceptsNothing : Prop :=
  ∀ s : State, halted s = true →
    (∀ cmd rest, s.script = .issue cmd :: rest → ∃ t, step s = .next t ∧
      SameV s t ∧ SameB s t ∧ SameTab s t ∧ SameOut s t ∧ SameControl s t ∧ t.pc = s.pc) ∧
    ∀ a rest t, s.script = .access a :: rest → step s = .next t →
      (a ≠ .reset → SameControl s t) ∧
      (a ≠ .reset → (∀ sel idx data, a ≠ .writeReg sel idx data) → SameV s t ∧ SameB s t) ∧
      ((∀ space addr x, a ≠ .writeByte space addr x) → SameTab s t ∧ SameOut s t)

/-- R204: only reset clears FAULT, and it makes every register unwritten again; while halted the host may still read and
write the registers and its own memories. -/
def Obligations.OnlyResetLeavesAFault : Prop :=
  ∀ s : State, faultBit s = true →
    (∀ t, step s = .next t → faultBit t = false → ∃ rest, s.script = .access .reset :: rest) ∧
    (∀ rest, s.script = .access .reset :: rest →
      ∃ t, step s = .next t ∧ faultBit t = false ∧ ∀ q, writtenV t q = false ∧ writtenB t q = false) ∧
    (∀ rest sel idx data, (s.script = .access (.readReg sel idx) :: rest ∨
      s.script = .access (.writeReg sel idx data) :: rest) → ∃ t, step s = .next t) ∧
    ∀ rest space addr x, addr < spaceSize s space → (s.script = .access (.readByte space addr) :: rest ∨
      s.script = .access (.writeByte space addr x) :: rest) → ∃ t, step s = .next t

/-- R29: FCMD changes only at fault entry, from a state without a fault, where it takes the faulting word, and at reset;
while FAULT = 0 it stays 0; a host write to it is ignored; and no command reads it. -/
def Obligations.FcmdIsWrittenOnlyAtFaultEntry : Prop :=
  (∀ s t : State, step s = .next t →
    (t.fcmd ≠ s.fcmd → (∃ rest, s.script = .access .reset :: rest) ∨
      (faultBit s = false ∧ faultBit t = true ∧ ∃ rest, s.script = .issue t.fcmd :: rest)) ∧
    (faultBit s = false → faultBit t = true → ∃ rest, s.script = .issue t.fcmd :: rest) ∧
    ((faultBit s = false → s.fcmd = 0#32) → faultBit t = false → t.fcmd = 0#32)) ∧
  (∀ (s : State) (data : BitVec 64) (rest : List HostMove), s.script = .access (.writeReg 2 1 data) :: rest →
    step s = .next { s with script := rest }) ∧
  ∀ (i : Instr) (s : State) (x : Word), ∃ t u, exec i s = .next t ∧ exec i { s with fcmd := x } = .next u ∧
    SameV t u ∧ SameB t u ∧ SameTab t u ∧ SameOut t u ∧ u.status = t.status ∧ SameHost t u ∧ u.pc = t.pc

/-- R203: `fault_o` is STATUS.FAULT; it is 0 from reset, rises only when a command faults, and falls only at a reset; the
host's look at it changes nothing but what the host has read. -/
def Obligations.FaultOutIsTheFaultBit : Prop :=
  (∀ s : State, faultOut s = s.status.getLsbD 0) ∧ faultOut State.reset = false ∧
  (∀ s t : State, step s = .next t →
    (faultOut s = false → faultOut t = true → ∃ cmd rest, s.script = .issue cmd :: rest ∧ t.fcmd = cmd) ∧
    (faultOut s = true → faultOut t = false → ∃ rest, s.script = .access .reset :: rest)) ∧
  ∀ (s : State) (rest : List HostMove), s.script = .access .watchFault :: rest →
    step s = .next { s with script := rest, replies := .level (faultOut s) :: s.replies }

/-! ### State, host port and reset (spec/10_state.md, spec/70_reset_and_hazards.md) -/

/-- R28: STATUS is 0 at reset and stays legal along every step; FAULT is sticky and only a reset clears it; bits 3:1 read 0 in
every state; a host write to it is ignored; and no command reads it. -/
def Obligations.StatusStaysLegal : Prop :=
  State.reset.status = 0x00#8 ∧ StatusLegal State.reset ∧
  (∀ s t : State, StatusLegal s → step s = .next t → StatusLegal t) ∧
  (∀ s t : State, step s = .next t → faultBit s = true → faultBit t = true ∨
    ∃ rest, s.script = .access .reset :: rest) ∧
  (∀ s : State, (hostReadReg 2 0 s).extractLsb' 1 3 = 0#3 ∧ (hostReadReg 2 0 s).extractLsb' 8 56 = 0#56 ∧
    (StatusLegal s → hostReadReg 2 0 s = s.status.setWidth 64)) ∧
  (∀ (s : State) (data : BitVec 64) (rest : List HostMove), s.script = .access (.writeReg 2 0 data) :: rest →
    step s = .next { s with script := rest }) ∧
  ∀ (i : Instr) (s : State) (x : BitVec 8), ∃ t u, exec i s = .next t ∧ exec i { s with status := x } = .next u ∧
    SameV t u ∧ SameB t u ∧ SameTab t u ∧ SameOut t u ∧ u.fcmd = t.fcmd ∧ SameHost t u ∧ u.pc = t.pc

/-- R36: the host register port, selector by selector, writes and reads. -/
def Obligations.HostRegisterPort : Prop :=
  ∀ (s : State) (rest : List HostMove) (idx : Reg) (data : BitVec 64),
    (s.script = .access (.writeReg 0 idx data) :: rest → ∃ t, step s = .next t ∧
      getV t idx = ⟨data.extractLsb' 0 32, data.extractLsb' 32 32⟩ ∧ writtenV t idx = true ∧ t.pc = s.pc ∧
      OnlyV idx { s with script := rest } t) ∧
    (s.script = .access (.writeReg 1 idx data) :: rest → ∃ t, step s = .next t ∧
      getB t idx = ⟨data.extractLsb' 0 32, data.extractLsb' 32 32⟩ ∧ writtenB t idx = true ∧ t.pc = s.pc ∧
      OnlyB idx { s with script := rest } t) ∧
    (s.script = .access (.writeReg 2 idx data) :: rest ∨ s.script = .access (.writeReg 3 idx data) :: rest →
      step s = .next { s with script := rest }) ∧
    ∀ sel : BitVec 2, s.script = .access (.readReg sel idx) :: rest →
      ∃ x, step s = .next { s with script := rest, replies := .data x :: s.replies } ∧
        x = if sel = 0 then (getV s idx).hi ++ (getV s idx).lo
          else if sel = 1 then (getB s idx).hi ++ (getB s idx).lo
          else if sel = 2 ∧ idx = 0 then 0#56 ++ statusWord s
          else if sel = 2 ∧ idx = 1 then 0#32 ++ s.fcmd
          else 0#64

/-- R226 and, for an address the space does not have, the model's own stop (log 12): the host's byte accesses. -/
def Obligations.HostMemoryPort : Prop :=
  ∀ (s : State) (rest : List HostMove) (space : Space) (addr : Nat) (x : Byte),
    (s.script = .access (.writeByte space addr x) :: rest → addr < spaceSize s space → ∃ t, step s = .next t ∧
      readByte t space addr = x ∧ (∀ sp a, (sp, a) ≠ (space, addr) → readByte t sp a = readByte s sp a) ∧
      SameV s t ∧ SameB s t ∧ SameControl s t ∧ SameHost { s with script := rest } t ∧ t.pc = s.pc) ∧
    (s.script = .access (.readByte space addr) :: rest → addr < spaceSize s space →
      step s = .next { s with script := rest, replies := .byte (readByte s space addr) :: s.replies }) ∧
    (s.script = .access (.writeByte space addr x) :: rest ∨ s.script = .access (.readByte space addr) :: rest →
      spaceSize s space ≤ addr → step s = .fault (.noSuchByte space addr)) ∧
    spaceSize s .tab = 8 * s.params.tabSlots ∧ spaceSize s .out = s.params.outBytes

/-- R37, R40: reset clears STATUS and FCMD and touches neither memory (nor the mask constants, R41); R39: no register counts as
written. -/
def Obligations.ResetClearsControlAndKeepsMemory : Prop :=
  ∀ (s : State) (rest : List HostMove), s.script = .access .reset :: rest →
    ∃ t, step s = .next t ∧ t.status = 0x00#8 ∧ t.fcmd = 0x00000000#32 ∧ faultOut t = false ∧ halted t = false ∧
      (∀ q, writtenV t q = false ∧ writtenB t q = false) ∧ SameTab s t ∧ SameOut s t ∧
      t.params.masks = s.params.masks ∧ t.script = rest

/-- R37, R38: the state after reset, and that it accepts the first command presented to it (log 7): a word that decodes
runs in the very next step. -/
def Obligations.AfterResetTheUnitAcceptsCommands : Prop :=
  State.reset.status = 0x00#8 ∧ State.reset.fcmd = 0x00000000#32 ∧ faultOut State.reset = false ∧
    (∀ q, writtenV State.reset q = false ∧ writtenB State.reset q = false) ∧
    ∀ (w : Nat) (i : Instr), decodeTableWord 32 w = some i →
      step (State.reset.withFetchWord 32 w) = exec i State.reset

/-- R41: no step, a reset included, changes the mask constants. -/
def Obligations.MaskConstantsNeverChange : Prop :=
  ∀ s t : State, step s = .next t → t.params.masks = s.params.masks

/-- R8, R28, R29, R59: every step keeps the invariant `Inv`, from every state that has it. -/
def Obligations.EveryStepKeepsTheInvariant : Prop :=
  ∀ s t : State, Inv s → step s = .next t → Inv t

/-- R8, R37, R40: the state after reset, with the instance the model names (log 1), has the invariant. -/
def Obligations.ResetHasTheInvariant : Prop :=
  Inv State.reset

/-- R230, R241, R26. Of the run of a program from any start state, whatever else the host does between the commands: while no
fault has been taken, the words left are those from the host's index on; a fault leaves the index at the word that FCMD holds;
the run is over exactly when it has completed or faulted, never both, and it is over once no word is left; the empty program
completes at once. And N words presented one after another, from any index, come to an end after at most N steps. The host's
script, that a step with nothing to do leaves the state, and that a reset ends a run are the model's choices (logs 7, 8, 11). -/
def Obligations.RunsEndAfterAtMostOneStepPerCommand : Prop :=
  (∀ (prog : List Word) (s t : State), InRun prog s t →
    (faultBit t = false → t.pc ≤ prog.length ∧ wordsLeft t = prog.drop t.pc) ∧
    (faultBit t = true → prog[t.pc]? = some t.fcmd) ∧
    (runOver prog t = true ↔ runCompleted prog t = true ∨ runFaulted prog t = true) ∧
    ¬(runCompleted prog t = true ∧ runFaulted prog t = true) ∧
    (wordsLeft t = [] → runOver prog t = true)) ∧
  (∀ s : State, BeginsRun [] s → InRun [] s s ∧ runCompleted [] s = true) ∧
  ∀ (prog : List Word) (s : State), halted s = false → s.script = prog.map .issue →
    ∃ t, Host.Core.run core prog.length s = .next t ∧ Reaches s t ∧
      ((t.script = [] ∧ faultBit t = false ∧ t.pc = s.pc + prog.length) ∨
        (faultBit t = true ∧ s.pc ≤ t.pc ∧ t.pc < s.pc + prog.length ∧ prog[t.pc - s.pc]? = some t.fcmd)) ∧
      (s.pc = 0 → InRun prog s t ∧ runOver prog t = true) ∧
      step t = .next t

/-- R25, R236 (with spec/93 U1, U2): what a disciplined command leaves in written registers and bytes does not depend on
anything that was not written. The written marks are the model's (log 5). -/
def Obligations.DisciplinedCommandsIgnoreTheUnwritten : Prop :=
  ∀ (i : Instr) (s u : State), disciplined i s = true → AgreeOnWritten s u →
    ∃ t w, exec i s = .next t ∧ exec i u = .next w ∧ t.pc = s.pc + 1 ∧ SameControl s t ∧ AgreeOnWritten t w
end

