-- ==== Sys2Proof/Laws/Encoding.lean ====
section
/-! SUPPORT. The eight formats (spec/30_encoding.md R82): which fields a word made of fields has, and its fixed bits
under the mask of R85. -/

namespace Sys2Proof

@[simp] theorem Opcode.ofCode_code (op : Opcode) : Opcode.ofCode op.code = some op := by
  cases op <;> decide

theorem Opcode.code_of_ofCode {c : BitVec 6} {op : Opcode} (h : Opcode.ofCode c = some op) : op.code = c := by
  revert h op c
  have e : ∀ c : BitVec 6, (Opcode.ofCode c).all fun op => op.code == c := by decide
  intro c op h
  simpa [h] using e c

/-! ### A field of joined fields -/

theorem extract_top {m n : Nat} (a : BitVec m) (c : BitVec n) : (a ++ c).extractLsb' n m = a := by
  simp [BitVec.extractLsb'_append_eq_of_le]

theorem extract_low {m n : Nat} (a : BitVec m) (c : BitVec n) : (a ++ c).extractLsb' 0 n = c := by
  simp [BitVec.extractLsb'_append_eq_of_add_le]

theorem extract_skip {m n len : Nat} (start : Nat) (a : BitVec m) (c : BitVec n) :
    (a ++ c).extractLsb' (start + n) len = a.extractLsb' start len := by
  simp [BitVec.extractLsb'_append_eq_of_le]

/-! ### The fields of a word made of fields -/

@[simp] theorem opField_D (op : Opcode) (rd : Reg) :
    opField (encodeD op rd) = op.code :=
  (extract_skip 4 _ _).trans (extract_top _ _)

@[simp] theorem rdField_D (op : Opcode) (rd : Reg) :
    rdField (encodeD op rd) = rd :=
  (extract_skip 0 _ _).trans (extract_low _ _)

@[simp] theorem zero_D (op : Opcode) (rd : Reg) :
    (encodeD op rd).extractLsb' 0 22 = 0#22 :=
  extract_low _ _

@[simp] theorem opField_DA (op : Opcode) (rd : Reg) (ra : Reg) :
    opField (encodeDA op rd ra) = op.code :=
  (extract_skip 8 _ _).trans ((extract_skip 4 _ _).trans (extract_top _ _))

@[simp] theorem rdField_DA (op : Opcode) (rd : Reg) (ra : Reg) :
    rdField (encodeDA op rd ra) = rd :=
  (extract_skip 4 _ _).trans ((extract_skip 0 _ _).trans (extract_low _ _))

@[simp] theorem raField_DA (op : Opcode) (rd : Reg) (ra : Reg) :
    raField (encodeDA op rd ra) = ra :=
  (extract_skip 0 _ _).trans (extract_low _ _)

@[simp] theorem zero_DA (op : Opcode) (rd : Reg) (ra : Reg) :
    (encodeDA op rd ra).extractLsb' 0 18 = 0#18 :=
  extract_low _ _

@[simp] theorem opField_DAB (op : Opcode) (rd : Reg) (ra : Reg) (rb : Reg) :
    opField (encodeDAB op rd ra rb) = op.code :=
  (extract_skip 12 _ _).trans ((extract_skip 8 _ _).trans ((extract_skip 4 _ _).trans (extract_top _ _)))

@[simp] theorem rdField_DAB (op : Opcode) (rd : Reg) (ra : Reg) (rb : Reg) :
    rdField (encodeDAB op rd ra rb) = rd :=
  (extract_skip 8 _ _).trans ((extract_skip 4 _ _).trans ((extract_skip 0 _ _).trans (extract_low _ _)))

@[simp] theorem raField_DAB (op : Opcode) (rd : Reg) (ra : Reg) (rb : Reg) :
    raField (encodeDAB op rd ra rb) = ra :=
  (extract_skip 4 _ _).trans ((extract_skip 0 _ _).trans (extract_low _ _))

@[simp] theorem rbField_DAB (op : Opcode) (rd : Reg) (ra : Reg) (rb : Reg) :
    rbField (encodeDAB op rd ra rb) = rb :=
  (extract_skip 0 _ _).trans (extract_low _ _)

@[simp] theorem zero_DAB (op : Opcode) (rd : Reg) (ra : Reg) (rb : Reg) :
    (encodeDAB op rd ra rb).extractLsb' 0 14 = 0#14 :=
  extract_low _ _

@[simp] theorem opField_DK (op : Opcode) (rd : Reg) (k : BitVec 4) :
    opField (encodeDK op rd k) = op.code :=
  (extract_skip 8 _ _).trans ((extract_skip 4 _ _).trans (extract_top _ _))

@[simp] theorem rdField_DK (op : Opcode) (rd : Reg) (k : BitVec 4) :
    rdField (encodeDK op rd k) = rd :=
  (extract_skip 4 _ _).trans ((extract_skip 0 _ _).trans (extract_low _ _))

@[simp] theorem kField_DK (op : Opcode) (rd : Reg) (k : BitVec 4) :
    kField (encodeDK op rd k) = k :=
  (extract_skip 0 _ _).trans (extract_low _ _)

@[simp] theorem zero_DK (op : Opcode) (rd : Reg) (k : BitVec 4) :
    (encodeDK op rd k).extractLsb' 0 18 = 0#18 :=
  extract_low _ _

@[simp] theorem opField_DAN (op : Opcode) (rd : Reg) (ra : Reg) (n : BitVec 5) :
    opField (encodeDAN op rd ra n) = op.code :=
  (extract_skip 13 _ _).trans ((extract_skip 8 _ _).trans ((extract_skip 4 _ _).trans (extract_top _ _)))

@[simp] theorem rdField_DAN (op : Opcode) (rd : Reg) (ra : Reg) (n : BitVec 5) :
    rdField (encodeDAN op rd ra n) = rd :=
  (extract_skip 9 _ _).trans ((extract_skip 4 _ _).trans ((extract_skip 0 _ _).trans (extract_low _ _)))

@[simp] theorem raField_DAN (op : Opcode) (rd : Reg) (ra : Reg) (n : BitVec 5) :
    raField (encodeDAN op rd ra n) = ra :=
  (extract_skip 5 _ _).trans ((extract_skip 0 _ _).trans (extract_low _ _))

@[simp] theorem nField_DAN (op : Opcode) (rd : Reg) (ra : Reg) (n : BitVec 5) :
    nField (encodeDAN op rd ra n) = n :=
  (extract_skip 0 _ _).trans (extract_low _ _)

@[simp] theorem zero_DAN (op : Opcode) (rd : Reg) (ra : Reg) (n : BitVec 5) :
    (encodeDAN op rd ra n).extractLsb' 0 13 = 0#13 :=
  extract_low _ _

@[simp] theorem opField_RS (op : Opcode) (r : Reg) (slot : BitVec 12) :
    opField (encodeRS op r slot) = op.code :=
  (extract_skip 16 _ _).trans ((extract_skip 4 _ _).trans (extract_top _ _))

@[simp] theorem rdField_RS (op : Opcode) (r : Reg) (slot : BitVec 12) :
    rdField (encodeRS op r slot) = r :=
  (extract_skip 12 _ _).trans ((extract_skip 0 _ _).trans (extract_low _ _))

@[simp] theorem slotField_RS (op : Opcode) (r : Reg) (slot : BitVec 12) :
    slotField (encodeRS op r slot) = slot :=
  (extract_skip 0 _ _).trans (extract_low _ _)

@[simp] theorem zero_RS (op : Opcode) (r : Reg) (slot : BitVec 12) :
    (encodeRS op r slot).extractLsb' 0 10 = 0#10 :=
  extract_low _ _

@[simp] theorem opField_NSO (op : Opcode) (cnt : BitVec 4) (slot : BitVec 12) (obase : BitVec 10) :
    opField (encodeNSO op cnt slot obase) = op.code :=
  (extract_skip 16 _ _).trans ((extract_skip 4 _ _).trans (extract_top _ _))

@[simp] theorem cntField_NSO (op : Opcode) (cnt : BitVec 4) (slot : BitVec 12) (obase : BitVec 10) :
    cntField (encodeNSO op cnt slot obase) = cnt :=
  (extract_skip 12 _ _).trans ((extract_skip 0 _ _).trans (extract_low _ _))

@[simp] theorem slotField_NSO (op : Opcode) (cnt : BitVec 4) (slot : BitVec 12) (obase : BitVec 10) :
    slotField (encodeNSO op cnt slot obase) = slot :=
  (extract_skip 0 _ _).trans (extract_low _ _)

@[simp] theorem obaseField_NSO (op : Opcode) (cnt : BitVec 4) (slot : BitVec 12) (obase : BitVec 10) :
    obaseField (encodeNSO op cnt slot obase) = obase :=
  extract_low _ _

@[simp] theorem opField_Z (op : Opcode) :
    opField (encodeZ op) = op.code :=
  extract_top _ _

@[simp] theorem zero_Z (op : Opcode) :
    (encodeZ op).extractLsb' 0 26 = 0#26 :=
  extract_low _ _

/-! ### The fixed bits of a word made of fields -/

/-- The opcode in bits 31:26 and 0 below: `match` in the table of R85. -/
def Opcode.matchWord (op : Opcode) : Word := op.code ++ 0#26

theorem masked_D (op : Opcode) (rd : Reg) : encodeD op rd &&& 0xFC3FFFFF#32 = op.matchWord := by
  have e : 0xFC3FFFFF#32 = 0x3F#6 ++ 0#4 ++ 0x3FFFFF#22 := by decide
  rw [e, encodeD, BitVec.and_append, BitVec.and_append, BitVec.and_zero]
  cases op <;> decide

theorem masked_DA (op : Opcode) (rd ra : Reg) : encodeDA op rd ra &&& 0xFC03FFFF#32 = op.matchWord := by
  have e : 0xFC03FFFF#32 = 0x3F#6 ++ 0#4 ++ 0#4 ++ 0x3FFFF#18 := by decide
  rw [e, encodeDA, BitVec.and_append, BitVec.and_append, BitVec.and_append, BitVec.and_zero, BitVec.and_zero]
  cases op <;> decide

theorem masked_DAB (op : Opcode) (rd ra rb : Reg) : encodeDAB op rd ra rb &&& 0xFC003FFF#32 = op.matchWord := by
  have e : 0xFC003FFF#32 = 0x3F#6 ++ 0#4 ++ 0#4 ++ 0#4 ++ 0x3FFF#14 := by decide
  rw [e, encodeDAB, BitVec.and_append, BitVec.and_append, BitVec.and_append, BitVec.and_append, BitVec.and_zero,
    BitVec.and_zero, BitVec.and_zero]
  cases op <;> decide

theorem masked_DK (op : Opcode) (rd : Reg) (k : BitVec 4) : encodeDK op rd k &&& 0xFC03FFFF#32 = op.matchWord :=
  masked_DA op rd k

theorem masked_DAN (op : Opcode) (rd ra : Reg) (n : BitVec 5) :
    encodeDAN op rd ra n &&& 0xFC001FFF#32 = op.matchWord := by
  have e : 0xFC001FFF#32 = 0x3F#6 ++ 0#4 ++ 0#4 ++ 0#5 ++ 0x1FFF#13 := by decide
  rw [e, encodeDAN, BitVec.and_append, BitVec.and_append, BitVec.and_append, BitVec.and_append, BitVec.and_zero,
    BitVec.and_zero, BitVec.and_zero]
  cases op <;> decide

theorem masked_RS (op : Opcode) (r : Reg) (slot : BitVec 12) :
    encodeRS op r slot &&& 0xFC0003FF#32 = op.matchWord := by
  have e : 0xFC0003FF#32 = 0x3F#6 ++ 0#4 ++ 0#12 ++ 0x3FF#10 := by decide
  rw [e, encodeRS, BitVec.and_append, BitVec.and_append, BitVec.and_append, BitVec.and_zero, BitVec.and_zero]
  cases op <;> decide

theorem masked_NSO (op : Opcode) (cnt : BitVec 4) (slot : BitVec 12) (obase : BitVec 10) :
    encodeNSO op cnt slot obase &&& 0xFC000000#32 = op.matchWord := by
  have e : 0xFC000000#32 = 0x3F#6 ++ 0#4 ++ 0#12 ++ 0#10 := by decide
  rw [e, encodeNSO, BitVec.and_append, BitVec.and_append, BitVec.and_append, BitVec.and_zero, BitVec.and_zero,
    BitVec.and_zero]
  cases op <;> decide

theorem masked_Z (op : Opcode) : encodeZ op &&& 0xFFFFFFFF#32 = op.matchWord := by
  cases op <;> decide

end Sys2Proof
end

