-- ==== Sys2Proof/Laws/Lanes.lean ====
section
/-! SUPPORT. The lanes of what the operators of Machine/Lanes.lean give (spec/00_scope.md R10 to R13,
spec/41_lane_vector_algebra.md R110). -/

namespace Sys2Proof

theorem Pair.ext_words {p q : Pair} (h : p.lo = q.lo) (h' : p.hi = q.hi) : p = q := by
  cases p
  cases q
  simp_all

/-- A lane is a bit of one of the two words (R11). -/
theorem Pair.lane_eq (p : Pair) (l : Nat) :
    p.lane l = if l < 32 then p.lo.getLsbD l else p.hi.getLsbD (l - 32) := by
  exact BitVec.getLsbD_append

@[simp] theorem Pair.lane_zero (l : Nat) : Pair.zero.lane l = false := by
  simp [Pair.lane_eq, Pair.zero]

theorem Pair.lane_ones {l : Nat} (h : l < 64) : Pair.ones.lane l = true := by
  have e : ∀ i : Nat, i < 32 → (0xFFFFFFFF#32).getLsbD i = true := by decide
  rw [Pair.lane_eq]
  split_ifs with h1
  · exact e l h1
  · exact e (l - 32) (by omega)

@[simp] theorem Pair.lane_and (p q : Pair) (l : Nat) : (p.and q).lane l = (p.lane l && q.lane l) := by
  simp only [Pair.lane_eq, Pair.and, BitVec.getLsbD_and]
  split_ifs <;> rfl

@[simp] theorem Pair.lane_or (p q : Pair) (l : Nat) : (p.or q).lane l = (p.lane l || q.lane l) := by
  simp only [Pair.lane_eq, Pair.or, BitVec.getLsbD_or]
  split_ifs <;> rfl

@[simp] theorem Pair.lane_xor (p q : Pair) (l : Nat) : (p.xor q).lane l = (p.lane l ^^ q.lane l) := by
  simp only [Pair.lane_eq, Pair.xor, BitVec.getLsbD_xor]
  split_ifs <;> rfl

theorem Pair.lane_not (p : Pair) {l : Nat} (h : l < 64) : p.not.lane l = !p.lane l := by
  simp only [Pair.lane_eq, Pair.not, BitVec.getLsbD_not]
  split_ifs with h1
  · simp [h1]
  · simp [show l - 32 < 32 by omega]

/-- A bit of a byte lane is a lane (R12). -/
theorem Pair.getLsbD_blane (p : Pair) (b i : Nat) :
    (p.blane b).getLsbD i = (decide (i < 8) && p.lane (8 * b + i)) := by
  simp [Pair.blane, Pair.lane, BitVec.getLsbD_extractLsb']

/-- A pair is known by its 64 lanes. -/
theorem Pair.ext_lanes {p q : Pair} (h : ∀ l, l < 64 → p.lane l = q.lane l) : p = q := by
  refine Pair.ext_words (BitVec.eq_of_getLsbD_eq fun i hi => ?_) (BitVec.eq_of_getLsbD_eq fun i hi => ?_)
  · simpa [Pair.lane_eq, hi] using h i (by omega)
  · simpa [Pair.lane_eq] using h (i + 32) (by omega)

/-- A pair is known by its 8 byte lanes. -/
theorem Pair.ext_blanes {p q : Pair} (h : ∀ b, b < 8 → p.blane b = q.blane b) : p = q := by
  refine Pair.ext_lanes fun l hl => ?_
  have e := congrArg (fun x => x.getLsbD (l % 8)) (h (l / 8) (by omega))
  simpa only [Pair.getLsbD_blane, Nat.mod_lt l (show 8 > 0 by decide), Nat.div_add_mod, decide_true,
    Bool.true_and] using e

@[simp] theorem Pair.blane_and (p q : Pair) (b : Nat) : (p.and q).blane b = p.blane b &&& q.blane b := by
  refine BitVec.eq_of_getLsbD_eq fun i hi => ?_
  simp only [BitVec.getLsbD_and, Pair.getLsbD_blane, Pair.lane_and, hi, decide_true, Bool.true_and]

@[simp] theorem Pair.blane_or (p q : Pair) (b : Nat) : (p.or q).blane b = p.blane b ||| q.blane b := by
  refine BitVec.eq_of_getLsbD_eq fun i hi => ?_
  simp only [BitVec.getLsbD_or, Pair.getLsbD_blane, Pair.lane_or, hi, decide_true, Bool.true_and]

@[simp] theorem Pair.blane_xor (p q : Pair) (b : Nat) : (p.xor q).blane b = p.blane b ^^^ q.blane b := by
  refine BitVec.eq_of_getLsbD_eq fun i hi => ?_
  simp only [BitVec.getLsbD_xor, Pair.getLsbD_blane, Pair.lane_xor, hi, decide_true, Bool.true_and]

/-- A bit of four bytes joined, lowest first. -/
theorem getLsbD_fourBytes (a b c d : Byte) (q i : Nat) (hi : i < 8) :
    (d ++ c ++ b ++ a : BitVec 32).getLsbD (8 * q + i) =
      if q = 0 then a.getLsbD i else if q = 1 then b.getLsbD i
      else if q = 2 then c.getLsbD i else d.getLsbD (8 * (q - 3) + i) := by
  have e : ∀ x y : Nat, x = y → ∀ z : Byte, z.getLsbD x = z.getLsbD y := fun x y h z => by rw [h]
  refine (BitVec.getLsbD_append (x := d ++ c ++ b) (y := a)).trans ?_
  rcases Nat.lt_or_ge q 1 with h | h
  · rw [if_pos (by omega), if_pos (by omega)]
    exact e _ _ (by omega) a
  rw [if_neg (by omega), if_neg (by omega)]
  refine (BitVec.getLsbD_append (x := d ++ c) (y := b)).trans ?_
  rcases Nat.lt_or_ge q 2 with h | h
  · rw [if_pos (by omega), if_pos (by omega)]
    exact e _ _ (by omega) b
  rw [if_neg (by omega), if_neg (by omega)]
  refine (BitVec.getLsbD_append (x := d) (y := c)).trans ?_
  rcases Nat.lt_or_ge q 3 with h | h
  · rw [if_pos (by omega), if_pos (by omega)]
    exact e _ _ (by omega) c
  rw [if_neg (by omega), if_neg (by omega)]
  exact e _ _ (by omega) d

/-- The lanes of a pair given by its byte lanes. -/
theorem Pair.lane_ofLanes (f : Nat → Byte) {b i : Nat} (hb : b < 8) (hi : i < 8) :
    (Pair.ofLanes f).lane (8 * b + i) = (f b).getLsbD i := by
  rw [Pair.lane_eq]
  split_ifs with h
  · refine (getLsbD_fourBytes _ _ _ _ b i hi).trans ?_
    have hb' : b < 4 := by omega
    interval_cases b <;> simp
  · rw [show 8 * b + i - 32 = 8 * (b - 4) + i by omega]
    refine (getLsbD_fourBytes _ _ _ _ (b - 4) i hi).trans ?_
    have hb' : 4 ≤ b := by omega
    interval_cases b <;> simp

@[simp] theorem Pair.blane_ofLanes (f : Nat → Byte) {b : Nat} (h : b < 8) : (Pair.ofLanes f).blane b = f b := by
  refine BitVec.eq_of_getLsbD_eq fun i hi => ?_
  simp only [Pair.getLsbD_blane, Pair.lane_ofLanes f h hi, hi, decide_true, Bool.true_and]

/-- Assembling a pair from its own byte lanes gives it back (R51). -/
@[simp] theorem Pair.ofLanes_blane (p : Pair) : Pair.ofLanes p.blane = p :=
  Pair.ext_blanes fun _ h => Pair.blane_ofLanes _ h

theorem Pair.ofLanes_congr {f g : Nat → Byte} (h : ∀ b, b < 8 → f b = g b) : Pair.ofLanes f = Pair.ofLanes g :=
  Pair.ext_blanes fun b hb => by rw [Pair.blane_ofLanes f hb, Pair.blane_ofLanes g hb, h b hb]

@[simp] theorem Pair.bits64_ofBits64 (x : BitVec 64) : (Pair.ofBits64 x).bits64 = x := by
  refine BitVec.eq_of_getLsbD_eq fun i hi => ?_
  refine BitVec.getLsbD_append.trans ?_
  simp only [Pair.ofBits64, BitVec.getLsbD_extractLsb']
  split_ifs with h
  · simp only [h, decide_true, Bool.true_and, Nat.zero_add]
  · simp only [show i - 32 < 32 by omega, show 32 + (i - 32) = i by omega, decide_true, Bool.true_and]

@[simp] theorem Pair.ofBits64_bits64 (p : Pair) : Pair.ofBits64 p.bits64 = p :=
  Pair.ext_lanes fun l _ => by simp only [Pair.lane, Pair.bits64_ofBits64]

end Sys2Proof
end

