-- ==== Sys2Proof/Laws/State.lean ====
section
/-! SUPPORT. What each update does to each field of the state, by definition, and to what is read through the
accessors. No later proof needs to unfold a record update. -/

namespace Sys2Proof.Machine

/-! ### setV -/

@[simp] theorem setV_v (s : State) (i : Reg) (p : Pair) : (setV s i p).v = s.v.set i.toNat p i.isLt := rfl
@[simp] theorem setV_b (s : State) (i : Reg) (p : Pair) : (setV s i p).b = s.b := rfl
@[simp] theorem setV_vWritten (s : State) (i : Reg) (p : Pair) : (setV s i p).vWritten = s.vWritten.set i.toNat true i.isLt := rfl
@[simp] theorem setV_bWritten (s : State) (i : Reg) (p : Pair) : (setV s i p).bWritten = s.bWritten := rfl
@[simp] theorem setV_status (s : State) (i : Reg) (p : Pair) : (setV s i p).status = s.status := rfl
@[simp] theorem setV_fcmd (s : State) (i : Reg) (p : Pair) : (setV s i p).fcmd = s.fcmd := rfl
@[simp] theorem setV_tab (s : State) (i : Reg) (p : Pair) : (setV s i p).tab = s.tab := rfl
@[simp] theorem setV_out (s : State) (i : Reg) (p : Pair) : (setV s i p).out = s.out := rfl
@[simp] theorem setV_params (s : State) (i : Reg) (p : Pair) : (setV s i p).params = s.params := rfl
@[simp] theorem setV_pc (s : State) (i : Reg) (p : Pair) : (setV s i p).pc = s.pc := rfl
@[simp] theorem setV_script (s : State) (i : Reg) (p : Pair) : (setV s i p).script = s.script := rfl
@[simp] theorem setV_replies (s : State) (i : Reg) (p : Pair) : (setV s i p).replies = s.replies := rfl
@[simp] theorem setV_resets (s : State) (i : Reg) (p : Pair) : (setV s i p).resets = s.resets := rfl

/-! ### setB -/

@[simp] theorem setB_v (s : State) (i : Reg) (p : Pair) : (setB s i p).v = s.v := rfl
@[simp] theorem setB_b (s : State) (i : Reg) (p : Pair) : (setB s i p).b = s.b.set i.toNat p i.isLt := rfl
@[simp] theorem setB_vWritten (s : State) (i : Reg) (p : Pair) : (setB s i p).vWritten = s.vWritten := rfl
@[simp] theorem setB_bWritten (s : State) (i : Reg) (p : Pair) : (setB s i p).bWritten = s.bWritten.set i.toNat true i.isLt := rfl
@[simp] theorem setB_status (s : State) (i : Reg) (p : Pair) : (setB s i p).status = s.status := rfl
@[simp] theorem setB_fcmd (s : State) (i : Reg) (p : Pair) : (setB s i p).fcmd = s.fcmd := rfl
@[simp] theorem setB_tab (s : State) (i : Reg) (p : Pair) : (setB s i p).tab = s.tab := rfl
@[simp] theorem setB_out (s : State) (i : Reg) (p : Pair) : (setB s i p).out = s.out := rfl
@[simp] theorem setB_params (s : State) (i : Reg) (p : Pair) : (setB s i p).params = s.params := rfl
@[simp] theorem setB_pc (s : State) (i : Reg) (p : Pair) : (setB s i p).pc = s.pc := rfl
@[simp] theorem setB_script (s : State) (i : Reg) (p : Pair) : (setB s i p).script = s.script := rfl
@[simp] theorem setB_replies (s : State) (i : Reg) (p : Pair) : (setB s i p).replies = s.replies := rfl
@[simp] theorem setB_resets (s : State) (i : Reg) (p : Pair) : (setB s i p).resets = s.resets := rfl

/-! ### writeTab -/

@[simp] theorem writeTab_v (s : State) (a : Nat) (x : Byte) : (writeTab s a x).v = s.v := rfl
@[simp] theorem writeTab_b (s : State) (a : Nat) (x : Byte) : (writeTab s a x).b = s.b := rfl
@[simp] theorem writeTab_vWritten (s : State) (a : Nat) (x : Byte) : (writeTab s a x).vWritten = s.vWritten := rfl
@[simp] theorem writeTab_bWritten (s : State) (a : Nat) (x : Byte) : (writeTab s a x).bWritten = s.bWritten := rfl
@[simp] theorem writeTab_status (s : State) (a : Nat) (x : Byte) : (writeTab s a x).status = s.status := rfl
@[simp] theorem writeTab_fcmd (s : State) (a : Nat) (x : Byte) : (writeTab s a x).fcmd = s.fcmd := rfl
@[simp] theorem writeTab_tab (s : State) (a : Nat) (x : Byte) : (writeTab s a x).tab = Memory.write s.tab a x := rfl
@[simp] theorem writeTab_out (s : State) (a : Nat) (x : Byte) : (writeTab s a x).out = s.out := rfl
@[simp] theorem writeTab_params (s : State) (a : Nat) (x : Byte) : (writeTab s a x).params = s.params := rfl
@[simp] theorem writeTab_pc (s : State) (a : Nat) (x : Byte) : (writeTab s a x).pc = s.pc := rfl
@[simp] theorem writeTab_script (s : State) (a : Nat) (x : Byte) : (writeTab s a x).script = s.script := rfl
@[simp] theorem writeTab_replies (s : State) (a : Nat) (x : Byte) : (writeTab s a x).replies = s.replies := rfl
@[simp] theorem writeTab_resets (s : State) (a : Nat) (x : Byte) : (writeTab s a x).resets = s.resets := rfl

/-! ### writeOut -/

@[simp] theorem writeOut_v (s : State) (a : Nat) (x : Byte) : (writeOut s a x).v = s.v := rfl
@[simp] theorem writeOut_b (s : State) (a : Nat) (x : Byte) : (writeOut s a x).b = s.b := rfl
@[simp] theorem writeOut_vWritten (s : State) (a : Nat) (x : Byte) : (writeOut s a x).vWritten = s.vWritten := rfl
@[simp] theorem writeOut_bWritten (s : State) (a : Nat) (x : Byte) : (writeOut s a x).bWritten = s.bWritten := rfl
@[simp] theorem writeOut_status (s : State) (a : Nat) (x : Byte) : (writeOut s a x).status = s.status := rfl
@[simp] theorem writeOut_fcmd (s : State) (a : Nat) (x : Byte) : (writeOut s a x).fcmd = s.fcmd := rfl
@[simp] theorem writeOut_tab (s : State) (a : Nat) (x : Byte) : (writeOut s a x).tab = s.tab := rfl
@[simp] theorem writeOut_out (s : State) (a : Nat) (x : Byte) : (writeOut s a x).out = Memory.write s.out a x := rfl
@[simp] theorem writeOut_params (s : State) (a : Nat) (x : Byte) : (writeOut s a x).params = s.params := rfl
@[simp] theorem writeOut_pc (s : State) (a : Nat) (x : Byte) : (writeOut s a x).pc = s.pc := rfl
@[simp] theorem writeOut_script (s : State) (a : Nat) (x : Byte) : (writeOut s a x).script = s.script := rfl
@[simp] theorem writeOut_replies (s : State) (a : Nat) (x : Byte) : (writeOut s a x).replies = s.replies := rfl
@[simp] theorem writeOut_resets (s : State) (a : Nat) (x : Byte) : (writeOut s a x).resets = s.resets := rfl

/-! ### complete -/

@[simp] theorem complete_v (s : State) : (complete s).v = s.v := rfl
@[simp] theorem complete_b (s : State) : (complete s).b = s.b := rfl
@[simp] theorem complete_vWritten (s : State) : (complete s).vWritten = s.vWritten := rfl
@[simp] theorem complete_bWritten (s : State) : (complete s).bWritten = s.bWritten := rfl
@[simp] theorem complete_status (s : State) : (complete s).status = s.status := rfl
@[simp] theorem complete_fcmd (s : State) : (complete s).fcmd = s.fcmd := rfl
@[simp] theorem complete_tab (s : State) : (complete s).tab = s.tab := rfl
@[simp] theorem complete_out (s : State) : (complete s).out = s.out := rfl
@[simp] theorem complete_params (s : State) : (complete s).params = s.params := rfl
@[simp] theorem complete_pc (s : State) : (complete s).pc = s.pc + 1 := rfl
@[simp] theorem complete_script (s : State) : (complete s).script = s.script := rfl
@[simp] theorem complete_replies (s : State) : (complete s).replies = s.replies := rfl
@[simp] theorem complete_resets (s : State) : (complete s).resets = s.resets := rfl

/-! ### takeFault -/

@[simp] theorem takeFault_v (c : Cause) (w : Word) (s : State) : (takeFault c w s).v = s.v := rfl
@[simp] theorem takeFault_b (c : Cause) (w : Word) (s : State) : (takeFault c w s).b = s.b := rfl
@[simp] theorem takeFault_vWritten (c : Cause) (w : Word) (s : State) : (takeFault c w s).vWritten = s.vWritten := rfl
@[simp] theorem takeFault_bWritten (c : Cause) (w : Word) (s : State) : (takeFault c w s).bWritten = s.bWritten := rfl
@[simp] theorem takeFault_status (c : Cause) (w : Word) (s : State) : (takeFault c w s).status = faultStatus c := rfl
@[simp] theorem takeFault_fcmd (c : Cause) (w : Word) (s : State) : (takeFault c w s).fcmd = w := rfl
@[simp] theorem takeFault_tab (c : Cause) (w : Word) (s : State) : (takeFault c w s).tab = s.tab := rfl
@[simp] theorem takeFault_out (c : Cause) (w : Word) (s : State) : (takeFault c w s).out = s.out := rfl
@[simp] theorem takeFault_params (c : Cause) (w : Word) (s : State) : (takeFault c w s).params = s.params := rfl
@[simp] theorem takeFault_pc (c : Cause) (w : Word) (s : State) : (takeFault c w s).pc = s.pc := rfl
@[simp] theorem takeFault_script (c : Cause) (w : Word) (s : State) : (takeFault c w s).script = s.script := rfl
@[simp] theorem takeFault_replies (c : Cause) (w : Word) (s : State) : (takeFault c w s).replies = s.replies := rfl
@[simp] theorem takeFault_resets (c : Cause) (w : Word) (s : State) : (takeFault c w s).resets = s.resets := rfl

/-! ### reply -/

@[simp] theorem reply_v (r : HostReply) (s : State) : (reply r s).v = s.v := rfl
@[simp] theorem reply_b (r : HostReply) (s : State) : (reply r s).b = s.b := rfl
@[simp] theorem reply_vWritten (r : HostReply) (s : State) : (reply r s).vWritten = s.vWritten := rfl
@[simp] theorem reply_bWritten (r : HostReply) (s : State) : (reply r s).bWritten = s.bWritten := rfl
@[simp] theorem reply_status (r : HostReply) (s : State) : (reply r s).status = s.status := rfl
@[simp] theorem reply_fcmd (r : HostReply) (s : State) : (reply r s).fcmd = s.fcmd := rfl
@[simp] theorem reply_tab (r : HostReply) (s : State) : (reply r s).tab = s.tab := rfl
@[simp] theorem reply_out (r : HostReply) (s : State) : (reply r s).out = s.out := rfl
@[simp] theorem reply_params (r : HostReply) (s : State) : (reply r s).params = s.params := rfl
@[simp] theorem reply_pc (r : HostReply) (s : State) : (reply r s).pc = s.pc := rfl
@[simp] theorem reply_script (r : HostReply) (s : State) : (reply r s).script = s.script := rfl
@[simp] theorem reply_replies (r : HostReply) (s : State) : (reply r s).replies = r :: s.replies := rfl
@[simp] theorem reply_resets (r : HostReply) (s : State) : (reply r s).resets = s.resets := rfl

/-! ### hostReset -/

@[simp] theorem hostReset_v (s : State) : (hostReset s).v = regFile (Config.vAtReset (s.resets + 1)) := rfl
@[simp] theorem hostReset_b (s : State) : (hostReset s).b = regFile (Config.bAtReset (s.resets + 1)) := rfl
@[simp] theorem hostReset_vWritten (s : State) : (hostReset s).vWritten = noneWritten := rfl
@[simp] theorem hostReset_bWritten (s : State) : (hostReset s).bWritten = noneWritten := rfl
@[simp] theorem hostReset_status (s : State) : (hostReset s).status = 0#8 := rfl
@[simp] theorem hostReset_fcmd (s : State) : (hostReset s).fcmd = 0#32 := rfl
@[simp] theorem hostReset_tab (s : State) : (hostReset s).tab = s.tab := rfl
@[simp] theorem hostReset_out (s : State) : (hostReset s).out = s.out := rfl
@[simp] theorem hostReset_params (s : State) : (hostReset s).params = s.params := rfl
@[simp] theorem hostReset_pc (s : State) : (hostReset s).pc = 0 := rfl
@[simp] theorem hostReset_script (s : State) : (hostReset s).script = s.script := rfl
@[simp] theorem hostReset_replies (s : State) : (hostReset s).replies = s.replies := rfl
@[simp] theorem hostReset_resets (s : State) : (hostReset s).resets = s.resets + 1 := rfl

/-! ### The accessors after an update of another part -/

@[simp] theorem getB_setV (s : State) (i : Reg) (p : Pair) (q : Reg) :
    getB (setV s i p) q = getB s q := rfl
@[simp] theorem writtenB_setV (s : State) (i : Reg) (p : Pair) (q : Reg) :
    writtenB (setV s i p) q = writtenB s q := rfl
@[simp] theorem readTab_setV (s : State) (i : Reg) (p : Pair) (e : Nat) :
    readTab (setV s i p) e = readTab s e := rfl
@[simp] theorem readOut_setV (s : State) (i : Reg) (p : Pair) (e : Nat) :
    readOut (setV s i p) e = readOut s e := rfl
@[simp] theorem faultBit_setV (s : State) (i : Reg) (p : Pair) :
    faultBit (setV s i p) = faultBit s := rfl
@[simp] theorem causeField_setV (s : State) (i : Reg) (p : Pair) :
    causeField (setV s i p) = causeField s := rfl
@[simp] theorem slotInRange_setV (s : State) (i : Reg) (p : Pair) (k : BitVec 12) :
    slotInRange (setV s i p) k = slotInRange s k := rfl
@[simp] theorem taccxCheck_setV (s : State) (i : Reg) (p : Pair) (c : BitVec 4) (k : BitVec 12) (e : BitVec 10) :
    taccxCheck (setV s i p) c k e = taccxCheck s c k e := rfl
@[simp] theorem maskByte_setV (s : State) (i : Reg) (p : Pair) (k : BitVec 4) :
    maskByte (setV s i p) k = maskByte s k := rfl
@[simp] theorem getV_setB (s : State) (i : Reg) (p : Pair) (q : Reg) :
    getV (setB s i p) q = getV s q := rfl
@[simp] theorem writtenV_setB (s : State) (i : Reg) (p : Pair) (q : Reg) :
    writtenV (setB s i p) q = writtenV s q := rfl
@[simp] theorem readTab_setB (s : State) (i : Reg) (p : Pair) (e : Nat) :
    readTab (setB s i p) e = readTab s e := rfl
@[simp] theorem readOut_setB (s : State) (i : Reg) (p : Pair) (e : Nat) :
    readOut (setB s i p) e = readOut s e := rfl
@[simp] theorem faultBit_setB (s : State) (i : Reg) (p : Pair) :
    faultBit (setB s i p) = faultBit s := rfl
@[simp] theorem causeField_setB (s : State) (i : Reg) (p : Pair) :
    causeField (setB s i p) = causeField s := rfl
@[simp] theorem slotInRange_setB (s : State) (i : Reg) (p : Pair) (k : BitVec 12) :
    slotInRange (setB s i p) k = slotInRange s k := rfl
@[simp] theorem taccxCheck_setB (s : State) (i : Reg) (p : Pair) (c : BitVec 4) (k : BitVec 12) (e : BitVec 10) :
    taccxCheck (setB s i p) c k e = taccxCheck s c k e := rfl
@[simp] theorem maskByte_setB (s : State) (i : Reg) (p : Pair) (k : BitVec 4) :
    maskByte (setB s i p) k = maskByte s k := rfl
@[simp] theorem getV_writeTab (s : State) (a : Nat) (x : Byte) (q : Reg) :
    getV (writeTab s a x) q = getV s q := rfl
@[simp] theorem getB_writeTab (s : State) (a : Nat) (x : Byte) (q : Reg) :
    getB (writeTab s a x) q = getB s q := rfl
@[simp] theorem writtenV_writeTab (s : State) (a : Nat) (x : Byte) (q : Reg) :
    writtenV (writeTab s a x) q = writtenV s q := rfl
@[simp] theorem writtenB_writeTab (s : State) (a : Nat) (x : Byte) (q : Reg) :
    writtenB (writeTab s a x) q = writtenB s q := rfl
@[simp] theorem readOut_writeTab (s : State) (a : Nat) (x : Byte) (e : Nat) :
    readOut (writeTab s a x) e = readOut s e := rfl
@[simp] theorem faultBit_writeTab (s : State) (a : Nat) (x : Byte) :
    faultBit (writeTab s a x) = faultBit s := rfl
@[simp] theorem causeField_writeTab (s : State) (a : Nat) (x : Byte) :
    causeField (writeTab s a x) = causeField s := rfl
@[simp] theorem slotInRange_writeTab (s : State) (a : Nat) (x : Byte) (k : BitVec 12) :
    slotInRange (writeTab s a x) k = slotInRange s k := rfl
@[simp] theorem taccxCheck_writeTab (s : State) (a : Nat) (x : Byte) (c : BitVec 4) (k : BitVec 12) (e : BitVec 10) :
    taccxCheck (writeTab s a x) c k e = taccxCheck s c k e := rfl
@[simp] theorem maskByte_writeTab (s : State) (a : Nat) (x : Byte) (k : BitVec 4) :
    maskByte (writeTab s a x) k = maskByte s k := rfl
@[simp] theorem getV_writeOut (s : State) (a : Nat) (x : Byte) (q : Reg) :
    getV (writeOut s a x) q = getV s q := rfl
@[simp] theorem getB_writeOut (s : State) (a : Nat) (x : Byte) (q : Reg) :
    getB (writeOut s a x) q = getB s q := rfl
@[simp] theorem writtenV_writeOut (s : State) (a : Nat) (x : Byte) (q : Reg) :
    writtenV (writeOut s a x) q = writtenV s q := rfl
@[simp] theorem writtenB_writeOut (s : State) (a : Nat) (x : Byte) (q : Reg) :
    writtenB (writeOut s a x) q = writtenB s q := rfl
@[simp] theorem readTab_writeOut (s : State) (a : Nat) (x : Byte) (e : Nat) :
    readTab (writeOut s a x) e = readTab s e := rfl
@[simp] theorem faultBit_writeOut (s : State) (a : Nat) (x : Byte) :
    faultBit (writeOut s a x) = faultBit s := rfl
@[simp] theorem causeField_writeOut (s : State) (a : Nat) (x : Byte) :
    causeField (writeOut s a x) = causeField s := rfl
@[simp] theorem slotInRange_writeOut (s : State) (a : Nat) (x : Byte) (k : BitVec 12) :
    slotInRange (writeOut s a x) k = slotInRange s k := rfl
@[simp] theorem taccxCheck_writeOut (s : State) (a : Nat) (x : Byte) (c : BitVec 4) (k : BitVec 12) (e : BitVec 10) :
    taccxCheck (writeOut s a x) c k e = taccxCheck s c k e := rfl
@[simp] theorem maskByte_writeOut (s : State) (a : Nat) (x : Byte) (k : BitVec 4) :
    maskByte (writeOut s a x) k = maskByte s k := rfl
@[simp] theorem getV_complete (s : State) (q : Reg) :
    getV (complete s) q = getV s q := rfl
@[simp] theorem getB_complete (s : State) (q : Reg) :
    getB (complete s) q = getB s q := rfl
@[simp] theorem writtenV_complete (s : State) (q : Reg) :
    writtenV (complete s) q = writtenV s q := rfl
@[simp] theorem writtenB_complete (s : State) (q : Reg) :
    writtenB (complete s) q = writtenB s q := rfl
@[simp] theorem readTab_complete (s : State) (e : Nat) :
    readTab (complete s) e = readTab s e := rfl
@[simp] theorem readOut_complete (s : State) (e : Nat) :
    readOut (complete s) e = readOut s e := rfl
@[simp] theorem faultBit_complete (s : State) :
    faultBit (complete s) = faultBit s := rfl
@[simp] theorem causeField_complete (s : State) :
    causeField (complete s) = causeField s := rfl
@[simp] theorem slotInRange_complete (s : State) (k : BitVec 12) :
    slotInRange (complete s) k = slotInRange s k := rfl
@[simp] theorem taccxCheck_complete (s : State) (c : BitVec 4) (k : BitVec 12) (e : BitVec 10) :
    taccxCheck (complete s) c k e = taccxCheck s c k e := rfl
@[simp] theorem maskByte_complete (s : State) (k : BitVec 4) :
    maskByte (complete s) k = maskByte s k := rfl
@[simp] theorem getV_takeFault (c : Cause) (w : Word) (s : State) (q : Reg) :
    getV (takeFault c w s) q = getV s q := rfl
@[simp] theorem getB_takeFault (c : Cause) (w : Word) (s : State) (q : Reg) :
    getB (takeFault c w s) q = getB s q := rfl
@[simp] theorem writtenV_takeFault (c : Cause) (w : Word) (s : State) (q : Reg) :
    writtenV (takeFault c w s) q = writtenV s q := rfl
@[simp] theorem writtenB_takeFault (c : Cause) (w : Word) (s : State) (q : Reg) :
    writtenB (takeFault c w s) q = writtenB s q := rfl
@[simp] theorem readTab_takeFault (c : Cause) (w : Word) (s : State) (e : Nat) :
    readTab (takeFault c w s) e = readTab s e := rfl
@[simp] theorem readOut_takeFault (c : Cause) (w : Word) (s : State) (e : Nat) :
    readOut (takeFault c w s) e = readOut s e := rfl
@[simp] theorem slotInRange_takeFault (c : Cause) (w : Word) (s : State) (k : BitVec 12) :
    slotInRange (takeFault c w s) k = slotInRange s k := rfl
@[simp] theorem taccxCheck_takeFault (d : Cause) (w : Word) (s : State) (c : BitVec 4) (k : BitVec 12) (e : BitVec 10) :
    taccxCheck (takeFault d w s) c k e = taccxCheck s c k e := rfl
@[simp] theorem maskByte_takeFault (c : Cause) (w : Word) (s : State) (k : BitVec 4) :
    maskByte (takeFault c w s) k = maskByte s k := rfl
@[simp] theorem getV_reply (r : HostReply) (s : State) (q : Reg) :
    getV (reply r s) q = getV s q := rfl
@[simp] theorem getB_reply (r : HostReply) (s : State) (q : Reg) :
    getB (reply r s) q = getB s q := rfl
@[simp] theorem writtenV_reply (r : HostReply) (s : State) (q : Reg) :
    writtenV (reply r s) q = writtenV s q := rfl
@[simp] theorem writtenB_reply (r : HostReply) (s : State) (q : Reg) :
    writtenB (reply r s) q = writtenB s q := rfl
@[simp] theorem readTab_reply (r : HostReply) (s : State) (e : Nat) :
    readTab (reply r s) e = readTab s e := rfl
@[simp] theorem readOut_reply (r : HostReply) (s : State) (e : Nat) :
    readOut (reply r s) e = readOut s e := rfl
@[simp] theorem faultBit_reply (r : HostReply) (s : State) :
    faultBit (reply r s) = faultBit s := rfl
@[simp] theorem causeField_reply (r : HostReply) (s : State) :
    causeField (reply r s) = causeField s := rfl
@[simp] theorem slotInRange_reply (r : HostReply) (s : State) (k : BitVec 12) :
    slotInRange (reply r s) k = slotInRange s k := rfl
@[simp] theorem taccxCheck_reply (r : HostReply) (s : State) (c : BitVec 4) (k : BitVec 12) (e : BitVec 10) :
    taccxCheck (reply r s) c k e = taccxCheck s c k e := rfl
@[simp] theorem maskByte_reply (r : HostReply) (s : State) (k : BitVec 4) :
    maskByte (reply r s) k = maskByte s k := rfl
@[simp] theorem readTab_hostReset (s : State) (e : Nat) :
    readTab (hostReset s) e = readTab s e := rfl
@[simp] theorem readOut_hostReset (s : State) (e : Nat) :
    readOut (hostReset s) e = readOut s e := rfl
@[simp] theorem slotInRange_hostReset (s : State) (k : BitVec 12) :
    slotInRange (hostReset s) k = slotInRange s k := rfl
@[simp] theorem taccxCheck_hostReset (s : State) (c : BitVec 4) (k : BitVec 12) (e : BitVec 10) :
    taccxCheck (hostReset s) c k e = taccxCheck s c k e := rfl
@[simp] theorem maskByte_hostReset (s : State) (k : BitVec 4) :
    maskByte (hostReset s) k = maskByte s k := rfl

/-! ### A register written -/

@[simp] theorem getV_setV_same (s : State) (i : Reg) (p : Pair) : getV (setV s i p) i = p := by
  simp [getV]

@[simp] theorem getB_setB_same (s : State) (i : Reg) (p : Pair) : getB (setB s i p) i = p := by
  simp [getB]

@[simp] theorem writtenV_setV_same (s : State) (i : Reg) (p : Pair) : writtenV (setV s i p) i = true := by
  simp [writtenV]

@[simp] theorem writtenB_setB_same (s : State) (i : Reg) (p : Pair) : writtenB (setB s i p) i = true := by
  simp [writtenB]

theorem toNat_ne_of_ne {i q : Reg} (h : q ≠ i) : i.toNat ≠ q.toNat := fun e => h (BitVec.eq_of_toNat_eq e.symm)

theorem getV_setV_other (s : State) (i : Reg) (p : Pair) {q : Reg} (h : q ≠ i) :
    getV (setV s i p) q = getV s q := by
  simp [getV, toNat_ne_of_ne h]

theorem getB_setB_other (s : State) (i : Reg) (p : Pair) {q : Reg} (h : q ≠ i) :
    getB (setB s i p) q = getB s q := by
  simp [getB, toNat_ne_of_ne h]

theorem writtenV_setV_other (s : State) (i : Reg) (p : Pair) {q : Reg} (h : q ≠ i) :
    writtenV (setV s i p) q = writtenV s q := by
  simp [writtenV, toNat_ne_of_ne h]

theorem writtenB_setB_other (s : State) (i : Reg) (p : Pair) {q : Reg} (h : q ≠ i) :
    writtenB (setB s i p) q = writtenB s q := by
  simp [writtenB, toNat_ne_of_ne h]

end Sys2Proof.Machine
end

