-- ==== Sys2Proof/Laws/Memory.lean ====
section
/-! SUPPORT. The laws of a memory (spec/20_memory.md R57, R61): a read after a write, the canonical form kept, and the
addresses listed after a write. -/

namespace Sys2Proof.Machine

@[simp] theorem Memory.read_write_same (m : List Host.Cell) (a : Nat) (x : Byte) :
    Memory.read (Memory.write m a x) a = some x := by
  induction m with
  | nil => simp [Memory.write, Memory.read]
  | cons c m ih =>
    simp only [Memory.write]
    split_ifs with h1 h2 <;> simp [Memory.read, *]

theorem Memory.read_write_other (m : List Host.Cell) {a e : Nat} (x : Byte) (h : e ≠ a) :
    Memory.read (Memory.write m a x) e = Memory.read m e := by
  have h' : a ≠ e := h.symm
  induction m with
  | nil => simp [Memory.write, Memory.read, h']
  | cons c m ih =>
    simp only [Memory.write]
    split_ifs with h1 h2
    · simp [Memory.read, h']
    · subst h2
      simp [Memory.read, h']
    · simp [Memory.read, ih]

theorem Memory.read_write (m : List Host.Cell) (a e : Nat) (x : Byte) :
    Memory.read (Memory.write m a x) e = if e = a then some x else Memory.read m e := by
  split_ifs with h
  · simp [h]
  · exact Memory.read_write_other m x h

/-- What a write lists: its own cell and cells listed before. -/
theorem Memory.mem_write {m : List Host.Cell} {a : Nat} {x : Byte} {c : Host.Cell}
    (h : c ∈ Memory.write m a x) : c = (a, x) ∨ c ∈ m := by
  induction m with
  | nil => simpa [Memory.write] using h
  | cons d m ih =>
    simp only [Memory.write] at h
    split_ifs at h with h1 h2
    · simpa using h
    · rcases List.mem_cons.1 h with h | h
      · exact .inl h
      · exact .inr (List.mem_cons_of_mem _ h)
    · rcases List.mem_cons.1 h with h | h
      · exact .inr (by simp [h])
      · exact (ih h).imp_right (List.mem_cons_of_mem _)

/-- A write keeps the canonical form. -/
theorem Memory.wf_write {m : List Host.Cell} (a : Nat) (x : Byte) (h : Memory.wf m) :
    Memory.wf (Memory.write m a x) := by
  induction m with
  | nil => simp [Memory.write, Memory.wf]
  | cons c m ih =>
    obtain ⟨hc, hm⟩ := List.pairwise_cons.1 h
    simp only [Memory.write]
    split_ifs with h1 h2
    · refine List.pairwise_cons.2 ⟨fun d hd => ?_, h⟩
      rcases List.mem_cons.1 hd with rfl | hd
      · exact h1
      · exact h1.trans (hc d hd)
    · exact List.pairwise_cons.2 ⟨fun d hd => h2 ▸ hc d hd, hm⟩
    · refine List.pairwise_cons.2 ⟨fun d hd => ?_, ih hm⟩
      rcases Memory.mem_write hd with rfl | hd
      · change c.1 < a
        omega
      · exact hc d hd

/-- A write below a bound keeps every listed address below it. -/
theorem Memory.bounded_write {m : List Host.Cell} {a size : Nat} (x : Byte) (ha : a < size)
    (h : ∀ c ∈ m, c.1 < size) : ∀ c ∈ Memory.write m a x, c.1 < size := by
  intro c hc
  rcases Memory.mem_write hc with rfl | hc
  · exact ha
  · exact h c hc

/-! ### Bytes of TAB and OUT -/

theorem readTab_writeTab (s : State) (a e : Nat) (x : Byte) :
    readTab (writeTab s a x) e = if e = a then x else readTab s e := by
  simp only [readTab, writeTab_tab, Memory.read_write]
  split_ifs <;> rfl

theorem readOut_writeOut (s : State) (a e : Nat) (x : Byte) :
    readOut (writeOut s a x) e = if e = a then x else readOut s e := by
  simp only [readOut, writeOut_out, Memory.read_write]
  split_ifs <;> rfl

end Sys2Proof.Machine
end

