-- ==== Sys2Proof/Laws/Ops.lean ====
section
/-! SUPPORT. What the shared operations do, once each: storing the byte lanes of a pair (spec/20_memory.md R51), the loop of
TACCX (spec/42_table_codec.md R133), fault entry (spec/60_exceptions.md R200) and taking the host's next move. -/

namespace Sys2Proof.Machine

/-! ### Storing byte lanes -/

/-- Storing byte lanes changes the listing of TAB and nothing else. -/
theorem storeLanes_eq (s : State) (base : Nat) (p : Pair) (n : Nat) :
    storeLanes s base p n = { s with tab := (storeLanes s base p n).tab } := by
  induction n with
  | zero => rfl
  | succ n ih =>
    rw [storeLanes, ih]
    rfl

theorem readTab_storeLanes (s : State) (base : Nat) (p : Pair) (n a : Nat) :
    readTab (storeLanes s base p n) a =
      if base ≤ a ∧ a < base + n then p.blane (a - base) else readTab s a := by
  induction n with
  | zero => rw [storeLanes, if_neg (by omega)]
  | succ n ih =>
    rw [storeLanes, readTab_writeTab, ih]
    by_cases h : a = base + n
    · subst h
      rw [if_pos rfl, if_pos (by omega), Nat.add_sub_cancel_left]
    · rw [if_neg h]
      exact if_congr (by omega) rfl rfl

theorem storeLanes_tab_legal {s : State} {base size n : Nat} (p : Pair) (hs : base + n ≤ size)
    (h : Memory.wf s.tab ∧ ∀ c ∈ s.tab, c.1 < size) :
    Memory.wf (storeLanes s base p n).tab ∧ ∀ c ∈ (storeLanes s base p n).tab, c.1 < size := by
  induction n with
  | zero => exact h
  | succ n ih =>
    have ih := ih (by omega)
    exact ⟨Memory.wf_write _ _ ih.1, Memory.bounded_write _ (by omega) ih.2⟩

/-- The listing after storing byte lanes: the bytes stored, and those listed before. -/
theorem isSome_read_storeLanes (s : State) (base : Nat) (p : Pair) (n a : Nat) :
    (Memory.read (storeLanes s base p n).tab a).isSome =
      (decide (base ≤ a ∧ a < base + n) || (Memory.read s.tab a).isSome) := by
  induction n with
  | zero => simp [storeLanes]
  | succ n ih =>
    rw [storeLanes, writeTab_tab, Memory.read_write]
    split_ifs with h
    · simp [h]
    · rw [ih]
      congr 1
      exact decide_eq_decide.2 (by omega)

/-- A slot written is a slot stored whole (R51): its 8 bytes are the byte lanes, every other byte stays. -/
theorem readTab_writeSlot (s : State) (slot : BitVec 12) (p : Pair) (a : Nat) :
    readTab (writeSlot s slot p) a =
      if slotAddr slot ≤ a ∧ a < slotAddr slot + 8 then p.blane (a - slotAddr slot) else readTab s a :=
  readTab_storeLanes s _ p 8 a

/-- A slot written reads back as the pair written (R51, R140). -/
theorem readSlot_writeSlot (s : State) (slot : BitVec 12) (p : Pair) : readSlot (writeSlot s slot p) slot = p := by
  refine Eq.trans (Pair.ofLanes_congr fun b hb => ?_) p.ofLanes_blane
  rw [readTab_writeSlot, if_pos (by omega), Nat.add_sub_cancel_left]

/-- Writing a slot changes the listing of TAB and nothing else. -/
theorem writeSlot_writes_tab (s : State) (slot : BitVec 12) (p : Pair) :
    ∃ m, writeSlot s slot p = { s with tab := m } := ⟨_, storeLanes_eq s _ p 8⟩

/-! ### The loop of TACCX -/

/-- The loop changes the listing of OUT and nothing else. -/
theorem accumulate_eq (s : State) (base obase n : Nat) :
    accumulate s base obase n = { s with out := (accumulate s base obase n).out } := by
  induction n with
  | zero => rfl
  | succ n ih =>
    rw [accumulate, ih]
    rfl

theorem accumulate_writes_out (s : State) (base obase n : Nat) :
    ∃ m, accumulate s base obase n = { s with out := m } := ⟨_, accumulate_eq s base obase n⟩

@[simp] theorem accumulate_tab (s : State) (base obase n : Nat) : (accumulate s base obase n).tab = s.tab := by
  rw [accumulate_eq]

@[simp] theorem readTab_accumulate (s : State) (base obase n a : Nat) :
    readTab (accumulate s base obase n) a = readTab s a := by
  rw [readTab, accumulate_tab, readTab]

/-- The loop XORs the `n` bytes positionally and leaves every other byte (R136, R137). -/
theorem readOut_accumulate (s : State) (base obase n a : Nat) :
    readOut (accumulate s base obase n) a =
      if obase ≤ a ∧ a < obase + n then readOut s a ^^^ readTab s (base + (a - obase)) else readOut s a := by
  induction n with
  | zero => rw [accumulate, if_neg (by omega)]
  | succ n ih =>
    rw [accumulate, readOut_writeOut]
    by_cases h : a = obase + n
    · subst h
      rw [ih] at *
      rw [if_pos rfl, if_neg (by omega), if_pos (by omega), readTab_accumulate, Nat.add_sub_cancel_left]
    · rw [if_neg h, ih]
      exact if_congr (by omega) rfl rfl

theorem accumulate_out_legal {s : State} {base obase size n : Nat} (hs : obase + n ≤ size)
    (h : Memory.wf s.out ∧ ∀ c ∈ s.out, c.1 < size) :
    Memory.wf (accumulate s base obase n).out ∧ ∀ c ∈ (accumulate s base obase n).out, c.1 < size := by
  induction n with
  | zero => exact h
  | succ n ih =>
    have ih := ih (by omega)
    exact ⟨Memory.wf_write _ _ ih.1, Memory.bounded_write _ (by omega) ih.2⟩

/-- The listing after the loop: the bytes accumulated, and those listed before. -/
theorem isSome_read_accumulate (s : State) (base obase n a : Nat) :
    (Memory.read (accumulate s base obase n).out a).isSome =
      (decide (obase ≤ a ∧ a < obase + n) || (Memory.read s.out a).isSome) := by
  induction n with
  | zero => simp [accumulate]
  | succ n ih =>
    rw [accumulate, writeOut_out, Memory.read_write]
    split_ifs with h
    · simp [h]
    · rw [ih]
      congr 1
      exact decide_eq_decide.2 (by omega)

/-! ### Fault entry -/

theorem faultStatus_faultBit (c : Cause) : (faultStatus c).getLsbD 0 = true := by
  cases c <;> decide

theorem faultStatus_cause (c : Cause) : (faultStatus c).extractLsb' 4 4 = c.code := by
  cases c <;> decide

theorem faultStatus_zeroBits (c : Cause) : faultStatus c &&& 0x0E#8 = 0#8 := by
  cases c <;> decide

@[simp] theorem faultBit_takeFault (c : Cause) (w : Word) (s : State) : faultBit (takeFault c w s) = true :=
  faultStatus_faultBit c

@[simp] theorem causeField_takeFault (c : Cause) (w : Word) (s : State) : causeField (takeFault c w s) = c.code :=
  faultStatus_cause c

/-! ### The host's next move -/

theorem takeMove_nil {s : State} (h : s.script = []) : takeMove s = .idle := by
  simp [takeMove, h]

theorem takeMove_halted {s : State} {w : Word} {rest : List HostMove} (h : s.script = .issue w :: rest)
    (hf : halted s = true) : takeMove s = .idle := by
  simp [takeMove, h, hf]

theorem takeMove_issue {s : State} {w : Word} {rest : List HostMove} (h : s.script = .issue w :: rest)
    (hf : halted s = false) : takeMove s = .command w { s with script := rest } := by
  simp [takeMove, h, hf]

theorem takeMove_access {s : State} {a : HostAccess} {rest : List HostMove} (h : s.script = .access a :: rest) :
    takeMove s = .host a { s with script := rest } := by
  simp [takeMove, h]

/-! ### Reset -/

theorem regFile_getElem (f : Nat → BitVec 64) (i : Nat) (h : i < 16) : (regFile f)[i] = .ofBits64 (f i) := by
  interval_cases i <;> rfl

theorem noneWritten_getElem (i : Nat) (h : i < 16) : noneWritten[i] = false := by
  interval_cases i <;> rfl

end Sys2Proof.Machine
end

