-- ==== Sys2Proof/Laws/Exec.lean ====
section
/-! SUPPORT. Everything a command and a step can do, said once: the shapes of `exec`'s and of `step`'s answers. Later proofs
take these apart and do not unfold the meanings again. -/

namespace Sys2Proof.Machine

/-- A command answers with a next state of one of six shapes: a V register, a B register, a slot or OUT bytes written and
the command complete; only complete; or the fault entry. -/
theorem exec_cases (i : Instr) (s : State) :
    (∃ rd p, exec i s = .next (complete (setV s rd p))) ∨
    (∃ rd p, exec i s = .next (complete (setB s rd p))) ∨
    (∃ slot p, slotInRange s slot = true ∧ exec i s = .next (complete (writeSlot s slot p))) ∨
    (∃ cnt slot obase, taccxCheck s cnt slot obase = none ∧
      exec i s = .next (complete (accumulate s (slotAddr slot) obase.toNat cnt.toNat))) ∨
    exec i s = .next (complete s) ∨
    ∃ c, exec i s = .next (takeFault c (encode i) s) := by
  cases i with
  | vzero rd => exact .inl ⟨_, _, rfl⟩
  | vones rd => exact .inl ⟨_, _, rfl⟩
  | vand rd ra rb => exact .inl ⟨_, _, rfl⟩
  | vor rd ra rb => exact .inl ⟨_, _, rfl⟩
  | vxor rd ra rb => exact .inl ⟨_, _, rfl⟩
  | vnot rd ra => exact .inl ⟨_, _, rfl⟩
  | tload r slot =>
    by_cases h : slotInRange s slot = true
    · exact .inl ⟨_, _, if_pos h⟩
    · exact .inr (.inr (.inr (.inr (.inr ⟨_, if_neg h⟩))))
  | tstore r slot =>
    by_cases h : slotInRange s slot = true
    · exact .inr (.inr (.inl ⟨_, _, h, if_pos h⟩))
    · exact .inr (.inr (.inr (.inr (.inr ⟨_, if_neg h⟩))))
  | taccx cnt slot obase =>
    cases h : taccxCheck s cnt slot obase with
    | none => exact .inr (.inr (.inr (.inl ⟨cnt, slot, obase, h, by simp [exec, execTaccx, h]⟩)))
    | some c => exact .inr (.inr (.inr (.inr (.inr ⟨c, by simp [exec, execTaccx, h]⟩))))
  | band rd ra rb => exact .inr (.inl ⟨_, _, rfl⟩)
  | bor rd ra rb => exact .inr (.inl ⟨_, _, rfl⟩)
  | bxor rd ra rb => exact .inr (.inl ⟨_, _, rfl⟩)
  | bmask rd k =>
    cases h : maskByte s k with
    | some m => exact .inr (.inl ⟨rd, .ofLanes fun _ => m, by simp [exec, execBmask, h, finishB]⟩)
    | none => exact .inr (.inr (.inr (.inr (.inr ⟨.illegalCommand, by simp [exec, execBmask, h]⟩))))
  | bshl rd ra n => exact .inr (.inl ⟨_, _, rfl⟩)
  | bshr rd ra n => exact .inr (.inl ⟨_, _, rfl⟩)
  | sync => exact .inr (.inr (.inr (.inr (.inl rfl))))

/-! ### The checks, in words of arithmetic -/

theorem slotInRange_iff (s : State) (slot : BitVec 12) :
    slotInRange s slot = true ↔ slot.toNat < s.params.tabSlots := by
  simp [slotInRange]

theorem taccxCheck_none_iff (s : State) (cnt : BitVec 4) (slot : BitVec 12) (obase : BitVec 10) :
    taccxCheck s cnt slot obase = none ↔
      cnt.toNat ≤ 8 ∧ slot.toNat < s.params.tabSlots ∧ obase.toNat + cnt.toNat ≤ s.params.outBytes := by
  unfold taccxCheck
  split_ifs <;> simp <;> omega

/-! ### The steps -/

/-- Nothing presented: nothing happens. -/
theorem step_nil {s : State} (h : s.script = []) : step s = .next s := by
  rw [step, takeMove_nil h]

/-- A command presented to the halted unit is not accepted. -/
theorem step_halted {s : State} {w : Word} {rest : List HostMove} (h : s.script = .issue w :: rest)
    (hf : halted s = true) : step s = .next s := by
  rw [step, takeMove_halted h hf]

/-- A command accepted and decoded. -/
theorem step_decoded {s : State} {w : Word} {rest : List HostMove} {i : Instr} (h : s.script = .issue w :: rest)
    (hf : halted s = false) (hd : decode s.params.nmask w = .ok i) : step s = exec i { s with script := rest } := by
  rw [step, takeMove_issue h hf]
  simp only [hd]

/-- A word accepted that does not decode. -/
theorem step_illegal {s : State} {w : Word} {rest : List HostMove} {e : DecodeError}
    (h : s.script = .issue w :: rest) (hf : halted s = false) (hd : decode s.params.nmask w = .error e) :
    step s = .next (takeFault .illegalCommand w { s with script := rest }) := by
  rw [step, takeMove_issue h hf]
  simp only [hd]
  rfl

/-- Another interaction of the host. -/
theorem step_access {s : State} {a : HostAccess} {rest : List HostMove} (h : s.script = .access a :: rest) :
    step s = hostAccess a { s with script := rest } := by
  rw [step, takeMove_access h]

end Sys2Proof.Machine
end

