-- ==== Sys2Proof/Laws/Frames.lean ====
section
/-! SUPPORT. The frames of the shared operations: what completing a command after one write leaves unchanged, and what the
fault entry leaves unchanged (spec/60_exceptions.md R200, R201). -/

namespace Sys2Proof.Machine

theorem onlyV_complete_setV (s : State) (rd : Reg) (p : Pair) : OnlyV rd s (complete (setV s rd p)) :=
  ⟨fun _ h => ⟨getV_setV_other s rd p h, writtenV_setV_other s rd p h⟩, fun _ => ⟨rfl, rfl⟩, fun _ => rfl,
    fun _ => rfl, ⟨rfl, rfl⟩, rfl, rfl, rfl, rfl⟩

theorem onlyB_complete_setB (s : State) (rd : Reg) (p : Pair) : OnlyB rd s (complete (setB s rd p)) :=
  ⟨fun _ h => ⟨getB_setB_other s rd p h, writtenB_setB_other s rd p h⟩, fun _ => ⟨rfl, rfl⟩, fun _ => rfl,
    fun _ => rfl, ⟨rfl, rfl⟩, rfl, rfl, rfl, rfl⟩

theorem onlySlot_complete_writeSlot (s : State) (slot : BitVec 12) (p : Pair) :
    OnlySlot slot s (complete (writeSlot s slot p)) := by
  refine ⟨fun a h => ?_, ?_⟩
  · rw [readTab_complete, readTab_writeSlot, if_neg h]
  · obtain ⟨m, hm⟩ := writeSlot_writes_tab s slot p
    rw [hm]
    exact ⟨fun _ => ⟨rfl, rfl⟩, fun _ => ⟨rfl, rfl⟩, fun _ => rfl, ⟨rfl, rfl⟩, rfl, rfl, rfl, rfl⟩

theorem onlyOut_complete_accumulate (s : State) (base obase n : Nat) :
    OnlyOut obase n s (complete (accumulate s base obase n)) := by
  refine ⟨fun a h => ?_, ?_⟩
  · rw [readOut_complete, readOut_accumulate, if_neg h]
  · obtain ⟨m, hm⟩ := accumulate_writes_out s base obase n
    rw [hm]
    exact ⟨fun _ => ⟨rfl, rfl⟩, fun _ => ⟨rfl, rfl⟩, fun _ => rfl, ⟨rfl, rfl⟩, rfl, rfl, rfl, rfl⟩

theorem onlyIndex_complete (s : State) : OnlyIndex s (complete s) :=
  ⟨fun _ => ⟨rfl, rfl⟩, fun _ => ⟨rfl, rfl⟩, fun _ => rfl, fun _ => rfl, ⟨rfl, rfl⟩, rfl, rfl, rfl, rfl⟩

theorem faultTaken_takeFault (c : Cause) (w : Word) (s : State) : FaultTaken c w s (takeFault c w s) :=
  ⟨faultBit_takeFault c w s, causeField_takeFault c w s, faultStatus_zeroBits c, rfl, fun _ => ⟨rfl, rfl⟩,
    fun _ => ⟨rfl, rfl⟩, fun _ => rfl, fun _ => rfl, ⟨rfl, rfl, rfl, rfl⟩, rfl⟩

/-- A command either completes, leaving the control registers and the host's side, or takes the fault entry. -/
theorem exec_completes_or_faults (i : Instr) (s : State) : ∃ t, exec i s = .next t ∧ t.script = s.script ∧
    ((t.pc = s.pc + 1 ∧ SameControl s t ∧ SameHost s t) ∨ ∃ c, t = takeFault c (encode i) s) := by
  rcases exec_cases i s with ⟨rd, p, h⟩ | ⟨rd, p, h⟩ | ⟨slot, p, -, h⟩ | ⟨cnt, slot, obase, -, h⟩ | h | ⟨c, h⟩
  · exact ⟨_, h, rfl, .inl ⟨rfl, ⟨rfl, rfl⟩, rfl, rfl, rfl, rfl⟩⟩
  · exact ⟨_, h, rfl, .inl ⟨rfl, ⟨rfl, rfl⟩, rfl, rfl, rfl, rfl⟩⟩
  · obtain ⟨m, hm⟩ := writeSlot_writes_tab s slot p
    rw [hm] at h
    exact ⟨_, h, rfl, .inl ⟨rfl, ⟨rfl, rfl⟩, rfl, rfl, rfl, rfl⟩⟩
  · obtain ⟨m, hm⟩ := accumulate_writes_out s (slotAddr slot) obase.toNat cnt.toNat
    rw [hm] at h
    exact ⟨_, h, rfl, .inl ⟨rfl, ⟨rfl, rfl⟩, rfl, rfl, rfl, rfl⟩⟩
  · exact ⟨_, h, rfl, .inl ⟨rfl, ⟨rfl, rfl⟩, rfl, rfl, rfl, rfl⟩⟩
  · exact ⟨_, h, rfl, .inr ⟨c, rfl⟩⟩

end Sys2Proof.Machine
end

