-- ==== Sys2Proof/Laws/PerInstr.lean ====
section
/-! SUPPORT. The family TableRow, one lemma per command: the word of the command has exactly the fixed bits its row of
spec/opcode_table.json gives (spec/30_encoding.md R85). -/

namespace Sys2Proof.Laws.TableRow

/-- The word `w` has the fixed bits of a row of the table: `w & mask == match` (R85). -/
def HasRow (w mask fixed : Word) : Prop := w &&& mask = fixed

/-- The row of each command, as R85 prints it: mask and match. -/
def row (i : Instr) : Word × Word :=
  match i with
  | .vzero _ => (0xFC3FFFFF#32, 0x04000000#32)
  | .vones _ => (0xFC3FFFFF#32, 0x08000000#32)
  | .vand _ _ _ => (0xFC003FFF#32, 0x0C000000#32)
  | .vor _ _ _ => (0xFC003FFF#32, 0x10000000#32)
  | .vxor _ _ _ => (0xFC003FFF#32, 0x14000000#32)
  | .vnot _ _ => (0xFC03FFFF#32, 0x18000000#32)
  | .tload _ _ => (0xFC0003FF#32, 0x44000000#32)
  | .tstore _ _ => (0xFC0003FF#32, 0x48000000#32)
  | .taccx _ _ _ => (0xFC000000#32, 0x4C000000#32)
  | .band _ _ _ => (0xFC003FFF#32, 0x84000000#32)
  | .bor _ _ _ => (0xFC003FFF#32, 0x88000000#32)
  | .bxor _ _ _ => (0xFC003FFF#32, 0x8C000000#32)
  | .bmask _ _ => (0xFC03FFFF#32, 0x90000000#32)
  | .bshl _ _ _ => (0xFC001FFF#32, 0x94000000#32)
  | .bshr _ _ _ => (0xFC001FFF#32, 0x98000000#32)
  | .sync => (0xFFFFFFFF#32, 0xC4000000#32)

/-- What the family says of a command. -/
def Statement (i : Instr) : Prop := HasRow (encode i) (row i).1 (row i).2

theorem vzero (rd : Reg) : Statement (.vzero rd) :=
  (masked_D .vzero rd).trans (show Opcode.vzero.matchWord = 0x04000000#32 by decide)

theorem vones (rd : Reg) : Statement (.vones rd) :=
  (masked_D .vones rd).trans (show Opcode.vones.matchWord = 0x08000000#32 by decide)

theorem vand (rd : Reg) (ra : Reg) (rb : Reg) : Statement (.vand rd ra rb) :=
  (masked_DAB .vand rd ra rb).trans (show Opcode.vand.matchWord = 0x0C000000#32 by decide)

theorem vor (rd : Reg) (ra : Reg) (rb : Reg) : Statement (.vor rd ra rb) :=
  (masked_DAB .vor rd ra rb).trans (show Opcode.vor.matchWord = 0x10000000#32 by decide)

theorem vxor (rd : Reg) (ra : Reg) (rb : Reg) : Statement (.vxor rd ra rb) :=
  (masked_DAB .vxor rd ra rb).trans (show Opcode.vxor.matchWord = 0x14000000#32 by decide)

theorem vnot (rd : Reg) (ra : Reg) : Statement (.vnot rd ra) :=
  (masked_DA .vnot rd ra).trans (show Opcode.vnot.matchWord = 0x18000000#32 by decide)

theorem tload (r : Reg) (slot : BitVec 12) : Statement (.tload r slot) :=
  (masked_RS .tload r slot).trans (show Opcode.tload.matchWord = 0x44000000#32 by decide)

theorem tstore (r : Reg) (slot : BitVec 12) : Statement (.tstore r slot) :=
  (masked_RS .tstore r slot).trans (show Opcode.tstore.matchWord = 0x48000000#32 by decide)

theorem taccx (cnt : BitVec 4) (slot : BitVec 12) (obase : BitVec 10) : Statement (.taccx cnt slot obase) :=
  (masked_NSO .taccx cnt slot obase).trans (show Opcode.taccx.matchWord = 0x4C000000#32 by decide)

theorem band (rd : Reg) (ra : Reg) (rb : Reg) : Statement (.band rd ra rb) :=
  (masked_DAB .band rd ra rb).trans (show Opcode.band.matchWord = 0x84000000#32 by decide)

theorem bor (rd : Reg) (ra : Reg) (rb : Reg) : Statement (.bor rd ra rb) :=
  (masked_DAB .bor rd ra rb).trans (show Opcode.bor.matchWord = 0x88000000#32 by decide)

theorem bxor (rd : Reg) (ra : Reg) (rb : Reg) : Statement (.bxor rd ra rb) :=
  (masked_DAB .bxor rd ra rb).trans (show Opcode.bxor.matchWord = 0x8C000000#32 by decide)

theorem bmask (rd : Reg) (k : BitVec 4) : Statement (.bmask rd k) :=
  (masked_DK .bmask rd k).trans (show Opcode.bmask.matchWord = 0x90000000#32 by decide)

theorem bshl (rd : Reg) (ra : Reg) (n : BitVec 5) : Statement (.bshl rd ra n) :=
  (masked_DAN .bshl rd ra n).trans (show Opcode.bshl.matchWord = 0x94000000#32 by decide)

theorem bshr (rd : Reg) (ra : Reg) (n : BitVec 5) : Statement (.bshr rd ra n) :=
  (masked_DAN .bshr rd ra n).trans (show Opcode.bshr.matchWord = 0x98000000#32 by decide)

theorem sync : Statement (.sync) :=
  (masked_Z .sync).trans (show Opcode.sync.matchWord = 0xC4000000#32 by decide)

end Sys2Proof.Laws.TableRow
end

