-- ==== Sys2Proof/Laws/Runs.lean ====
section
/-! SUPPORT. The small laws of runs (spec/70_reset_and_hazards.md R230): the words left after each kind of move, the moves a
host access leaves on the script, and Reaches built from its first step. -/

namespace Sys2Proof.Machine

theorem wordsLeft_nil {s : State} (h : s.script = []) : wordsLeft s = [] := by
  rw [wordsLeft, h]
  rfl

theorem wordsLeft_issue {s : State} {cmd : Word} {rest : List HostMove} (h : s.script = .issue cmd :: rest) :
    wordsLeft s = cmd :: wordsOf (untilReset rest) := by
  rw [wordsLeft, h]
  rfl

theorem wordsLeft_access {s : State} {a : HostAccess} {rest : List HostMove} (h : s.script = .access a :: rest)
    (ha : a ≠ .reset) : wordsLeft s = wordsOf (untilReset rest) := by
  rw [wordsLeft, h]
  cases a <;> first | rfl | exact absurd rfl ha

/-- A program presented with nothing between its words. -/
theorem wordsLeft_map_issue {s : State} {prog : List Word} (h : s.script = prog.map .issue) : wordsLeft s = prog := by
  rw [wordsLeft, h]
  clear h
  induction prog with
  | nil => rfl
  | cons w prog ih => exact congrArg (w :: ·) ih

/-- A host access other than a reset leaves the script, the host's index and the control registers. -/
theorem hostAccess_keeps {a : HostAccess} {s t : State} (ha : a ≠ .reset) (h : hostAccess a s = .next t) :
    t.script = s.script ∧ t.pc = s.pc ∧ SameControl s t := by
  cases a with
  | reset => exact absurd rfl ha
  | writeReg sel idx data =>
    simp only [hostAccess] at h
    injection h with h
    subst h
    unfold hostWriteReg
    split <;> exact ⟨rfl, rfl, rfl, rfl⟩
  | readReg sel idx =>
    injection h with h
    subst h
    exact ⟨rfl, rfl, rfl, rfl⟩
  | writeByte space addr x =>
    simp only [hostAccess] at h
    split at h
    · injection h with h
      subst h
      cases space <;> exact ⟨rfl, rfl, rfl, rfl⟩
    · cases h
  | readByte space addr =>
    simp only [hostAccess] at h
    split at h
    · injection h with h
      subst h
      exact ⟨rfl, rfl, rfl, rfl⟩
    · cases h
  | watchFault =>
    injection h with h
    subst h
    exact ⟨rfl, rfl, rfl, rfl⟩

/-- A step that presents a command is not a reset. -/
theorem notReset_of_issue {s : State} {cmd : Word} {rest : List HostMove} (h : s.script = .issue cmd :: rest) :
    ∀ r, s.script ≠ .access .reset :: r := by
  intro r e
  rw [h] at e
  cases e

theorem Reaches.trans {s t u : State} (h : Reaches s t) (h' : Reaches t u) : Reaches s u := by
  induction h' with
  | refl => exact h
  | snoc _ hr hs ih => exact .snoc ih hr hs

/-- One step more at the beginning. -/
theorem Reaches.head {s t u : State} (hr : ∀ rest, s.script ≠ .access .reset :: rest) (hs : step s = .next t)
    (h : Reaches t u) : Reaches s u :=
  Reaches.trans (.snoc (.refl s) hr hs) h

end Sys2Proof.Machine
end

