-- ==== Sys2Proof/Tests/Slice0.lean ====
section
/-! SUPPORT. Tests on single steps, with results taken from spec/95_test_vectors.md (T1 to T83) and from the encoding tables of
spec/30_encoding.md, and one witness for each statement that has hypotheses. -/

open Sys2Proof Sys2Proof.Machine

namespace Sys2Proof.Tests

/-! ### The start states of spec/95_test_vectors.md -/

/-- TAB_SLOTS = 2, OUT_BYTES = 10, two mask constants, SHIFT_GRAIN = 32. -/
def params2 : Params := { tabSlots := 2, outBytes := 10, masks := [0x29#8, 0x02#8], grain := .word }

/-- A unit just reset, attached to that instance. -/
def fresh : State := { State.reset with params := params2 }

/-- The start of section 2.3: a and b in TAB, 11 22 ... AA in OUT. -/
def filled : State :=
  { fresh with
    tab := [(0, 0x55#8), (1, 0x33#8), (2, 0x0F#8), (3, 0x0F#8), (4, 0xEF#8), (5, 0xBE#8), (6, 0xAD#8), (7, 0xDE#8),
      (8, 0x5A#8), (9, 0x5A#8), (10, 0xFF#8), (11, 0x00#8), (12, 0x78#8), (13, 0x56#8), (14, 0x34#8), (15, 0x12#8)]
    out := [(0, 0x11#8), (1, 0x22#8), (2, 0x33#8), (3, 0x44#8), (4, 0x55#8), (5, 0x66#8), (6, 0x77#8), (7, 0x88#8),
      (8, 0x99#8), (9, 0xAA#8)] }

/-- With `v[0]` = a and `v[1]` = b. -/
def lanes : State :=
  setV (setV filled 0 ⟨0x0F0F3355#32, 0xDEADBEEF#32⟩) 1 ⟨0x00FF5A5A#32, 0x12345678#32⟩

/-- With `b[0]` = d, `b[1]` = e, `b[2]` = `b[5]` = c, `b[3]` = Z and `b[4]` = O. -/
def bytes : State :=
  setB (setB (setB (setB (setB (setB filled 0 ⟨0x12345678#32, 0x9ABCDEF0#32⟩) 1 ⟨0x0F0F0F0F#32, 0xF0F0F0F0#32⟩)
    2 ⟨0x80402901#32, 0xFF0180C3#32⟩) 5 ⟨0x80402901#32, 0xFF0180C3#32⟩) 3 ⟨0#32, 0#32⟩) 4 ⟨0xFFFFFFFF#32, 0xFFFFFFFF#32⟩

/-- The same with SHIFT_GRAIN = 8. -/
def bytes8 : State := { bytes with params := { params2 with grain := .byteLane } }

/-- The host has one move to make. -/
def withMove (m : HostMove) (s : State) : State := { s with script := [m] }

/-- The unit of `filled` after a fault. -/
def stopped : State := takeFault .countRange 0x4E400000#32 filled

/-- The result is a next state with the property. -/
def ends (r : Result) (p : State → Bool) : Bool :=
  match r with
  | .next t => p t
  | .fault _ => false
  | .refused _ => false

/-- The 10 bytes of OUT. -/
def outBytes (s : State) : List Byte := (List.range 10).map (readOut s)

/-- The first 8 bytes of TAB. -/
def slot0 (s : State) : List Byte := (List.range 8).map (readTab s)

/-! ### Well-formedness: BMASK's is the only check there is -/

theorem test_illFormed_bmask : wellFormed 2 (.bmask 0 2) = false := by decide

theorem test_wellFormed_bmask : wellFormed 2 (.bmask 0 1) = true := by decide

/-! ### Decoding: each row's word written out field by field from R82 and R85 -/

theorem test_decode_vzero : decode 2 0b00000100010000000000000000000000#32 = .ok (.vzero 1) := by decide

theorem test_decode_vones : decode 2 0b00001011110000000000000000000000#32 = .ok (.vones 15) := by decide

theorem test_decode_vand : decode 2 0b00001100100001001100000000000000#32 = .ok (.vand 2 1 3) := by decide

theorem test_decode_vor : decode 2 0b00010011000000101000000000000000#32 = .ok (.vor 12 0 10) := by decide

theorem test_decode_vxor : decode 2 0b00010101000111000100000000000000#32 = .ok (.vxor 4 7 1) := by decide

theorem test_decode_vnot : decode 2 0b00011001011010000000000000000000#32 = .ok (.vnot 5 10) := by decide

theorem test_decode_tload : decode 2 0b01000111111111111111110000000000#32 = .ok (.tload 15 4095) := by decide

theorem test_decode_tstore : decode 2 0b01001001100000000000100000000000#32 = .ok (.tstore 6 2) := by decide

theorem test_decode_taccx : decode 2 0b01001110010000000001011111101000#32 = .ok (.taccx 9 5 1000) := by decide

theorem test_decode_band : decode 2 0b10000100100000000100000000000000#32 = .ok (.band 2 0 1) := by decide

theorem test_decode_bor : decode 2 0b10001001110011011000000000000000#32 = .ok (.bor 7 3 6) := by decide

theorem test_decode_bxor : decode 2 0b10001101000000000000000000000000#32 = .ok (.bxor 4 0 0) := by decide

theorem test_decode_bmask : decode 6 0b10010001000101000000000000000000#32 = .ok (.bmask 4 5) := by decide

theorem test_decode_bshl : decode 2 0b10010100110010000010000000000000#32 = .ok (.bshl 3 2 1) := by decide

theorem test_decode_bshr : decode 2 0b10011001100101001100000000000000#32 = .ok (.bshr 6 5 6) := by decide

theorem test_decode_sync : decode 2 0b11000100000000000000000000000000#32 = .ok .sync := by decide

/-- T32 to T34: the ends of every range of reserved opcodes. -/
theorem test_decode_reservedOpcodes :
    [0x00000000#32, 0xFFFFFFFF#32, 0x1C000000#32, 0x40000000#32, 0x50000000#32, 0x80000000#32, 0x9C000000#32,
      0xC0000000#32, 0xC8000000#32, 0xFC000000#32].all fun w => decide (decode 2 w = .error .reservedOpcode) := by decide

/-- T35 to T41. -/
theorem test_decode_reservedBits :
    [0x04400001#32, 0x04600000#32, 0x19420000#32, 0x0C806000#32, 0x94C83000#32, 0x44000200#32, 0xC6000000#32,
      0xC4000001#32].all fun w => decide (decode 2 w = .error .reservedBits) := by decide

/-- T42, T43. -/
theorem test_decode_maskConstants :
    decode 2 0x90040000#32 = .ok (.bmask 0 1) ∧ (decode 2 0x90080000#32).toOption = none := by decide

theorem test_decodeTableWord : decodeTableWord 32 0x4CC00001 = some (.taccx 3 0 1) := by decide

/-! ### The commands -/

/-- T13: the destination is a source. -/
theorem test_vand : ends (exec (.vand 0 0 1) lanes) (fun t =>
    decide (getV t 0 = ⟨0x000F1250#32, 0x12241668#32⟩) && decide (getV t 1 = ⟨0x00FF5A5A#32, 0x12345678#32⟩)) := by decide

/-- T4. -/
theorem test_vor : ends (exec (.vor 3 0 1) lanes) (fun t => decide (getV t 3 = ⟨0x0FFF7B5F#32, 0xDEBDFEFF#32⟩)) := by decide

/-- T5. -/
theorem test_vxor : ends (exec (.vxor 4 0 1) lanes) (fun t => decide (getV t 4 = ⟨0x0FF0690F#32, 0xCC99E897#32⟩)) := by
  decide

/-- T6. -/
theorem test_vnot : ends (exec (.vnot 5 0) lanes) (fun t => decide (getV t 5 = ⟨0xF0F0CCAA#32, 0x21524110#32⟩)) := by decide

/-- T16: the two words do not mix. -/
theorem test_vnot_words : ends (exec (.vnot 1 0) (setV fresh 0 ⟨0xFFFFFFFF#32, 0#32⟩)) (fun t =>
    decide (getV t 1 = ⟨0#32, 0xFFFFFFFF#32⟩)) := by decide

/-- T1: the destination counts as written (R25) and the host's index moves on (R26). -/
theorem test_vzero : ends (exec (.vzero 1) fresh) (fun t =>
    decide (getV t 1 = ⟨0#32, 0#32⟩) && writtenV t 1 && !writtenV t 0 && decide (t.pc = 1)) := by decide

/-- T2. -/
theorem test_vones : ends (exec (.vones 0) fresh) (fun t =>
    decide (getV t 0 = ⟨0xFFFFFFFF#32, 0xFFFFFFFF#32⟩)) := by decide

/-- T24. -/
theorem test_tload : ends (exec (.tload 1 1) filled) (fun t => decide (getV t 1 = ⟨0x00FF5A5A#32, 0x12345678#32⟩)) := by
  decide

/-- T45: slot = TAB_SLOTS. -/
theorem test_tload_slotRange : ends (exec (.tload 0 2) filled) (fun t =>
    decide (t.status = 0x31#8) && decide (t.fcmd = 0x44000800#32) && decide (t.pc = 0)) := by decide

/-- T23: lane 63 is bit 7 of byte 7. -/
theorem test_tstore : ends (exec (.tstore 0 0) (setV filled 0 ⟨0#32, 0x80000000#32⟩)) (fun t =>
    decide (slot0 t = [0x00#8, 0x00#8, 0x00#8, 0x00#8, 0x00#8, 0x00#8, 0x00#8, 0x80#8])) := by decide

/-- T46. -/
theorem test_tstore_slotRange : ends (exec (.tstore 0 2) lanes) (fun t =>
    decide (t.status = 0x31#8) && decide (slot0 t = slot0 lanes)) := by decide

/-- T31: the last legal offset. -/
theorem test_taccx : ends (exec (.taccx 8 1 2) filled) (fun t =>
    decide (outBytes t =
      [0x11#8, 0x22#8, 0x69#8, 0x1E#8, 0xAA#8, 0x66#8, 0x0F#8, 0xDE#8, 0xAD#8, 0xB8#8])) := by decide

/-- T53 to T56 on this instance: the priority of the three checks. -/
theorem test_taccx_priority :
    ends (exec (.taccx 9 5 1000) filled) (fun t => decide (t.status = 0x21#8)) ∧
    ends (exec (.taccx 4 5 1000) filled) (fun t => decide (t.status = 0x31#8)) ∧
    ends (exec (.taccx 4 1 1000) filled) (fun t => decide (t.status = 0x41#8) && decide (t.fcmd = 0x4D0007E8#32)) := by
  decide

/-- T58. -/
theorem test_band : ends (exec (.band 2 0 1) bytes) (fun t => decide (getB t 2 = ⟨0x02040608#32, 0x90B0D0F0#32⟩)) := by
  decide

/-- T59. -/
theorem test_bor : ends (exec (.bor 2 0 1) bytes) (fun t => decide (getB t 2 = ⟨0x1F3F5F7F#32, 0xFAFCFEF0#32⟩)) := by decide

/-- T60. -/
theorem test_bxor : ends (exec (.bxor 2 0 1) bytes) (fun t => decide (getB t 2 = ⟨0x1D3B5977#32, 0x6A4C2E00#32⟩)) := by
  decide

/-- T62. -/
theorem test_bmask : ends (exec (.bmask 1 0) fresh) (fun t => decide (getB t 1 = ⟨0x29292929#32, 0x29292929#32⟩)) := by
  decide

/-- T65, BSHL under both grains. -/
theorem test_bshl :
    ends (exec (.bshl 1 2 1) bytes) (fun t => decide (getB t 1 = ⟨0x00805202#32, 0xFE030186#32⟩)) ∧
    ends (exec (.bshl 1 2 1) bytes8) (fun t => decide (getB t 1 = ⟨0x00805202#32, 0xFE020086#32⟩)) := by decide

/-- T69, BSHL by more than a byte lane, under both grains. -/
theorem test_bshl_nine :
    ends (exec (.bshl 1 2 9) bytes) (fun t => decide (getB t 1 = ⟨0x80520200#32, 0x03018600#32⟩)) ∧
    ends (exec (.bshl 1 2 9) bytes8) (fun t => decide (getB t 1 = ⟨0#32, 0#32⟩)) := by decide

/-- T66, BSHR under both grains. -/
theorem test_bshr :
    ends (exec (.bshr 2 5 4) bytes) (fun t => decide (getB t 2 = ⟨0x08040290#32, 0x0FF0180C#32⟩)) ∧
    ends (exec (.bshr 2 5 4) bytes8) (fun t => decide (getB t 2 = ⟨0x08040200#32, 0x0F00080C#32⟩)) := by decide

/-- T72, BSHR by 31. -/
theorem test_bshr_end :
    ends (exec (.bshr 2 5 31) bytes) (fun t => decide (getB t 2 = ⟨0x00000001#32, 0x00000001#32⟩)) := by decide

/-- T83. -/
theorem test_sync : exec .sync filled = .next { filled with pc := 1 } := rfl

/-! ### Steps -/

/-- T32: the first reserved opcode. -/
theorem test_step_illegal : ends (step (withMove (.issue 0x00000000#32) filled)) (fun t =>
    decide (t.status = 0x11#8) && decide (t.fcmd = 0x00000000#32) && decide (t.pc = 0) && faultOut t) := by decide

/-- T28 as a step, placed by withFetchWord. -/
theorem test_step_taccx : ends (step (filled.withFetchWord 32 0x4CC00001)) (fun t =>
    decide (outBytes t =
      [0x11#8, 0x77#8, 0x00#8, 0x4B#8, 0x55#8, 0x66#8, 0x77#8, 0x88#8, 0x99#8, 0xAA#8]) && decide (t.pc = 1)) := by decide

/-- P5, the command after the fault: never accepted. -/
theorem test_step_halted : step (withMove (.issue 0x04400000#32) stopped) = .next (withMove (.issue 0x04400000#32) stopped) :=
  step_halted rfl (by decide)

/-- Section 2.2: the host writes 0xDEADBEEF0F0F3355 and the register holds a. -/
theorem test_step_hostWrite : ends (step (withMove (.access (.writeReg 0 7 0xDEADBEEF0F0F3355#64)) fresh)) (fun t =>
    decide (getV t 7 = ⟨0x0F0F3355#32, 0xDEADBEEF#32⟩) && writtenV t 7) := by decide

/-- R36: the host reads STATUS and FCMD of the halted unit. -/
theorem test_step_hostRead :
    ends (step (withMove (.access (.readReg 2 0)) stopped)) (fun t => decide (t.replies = [.data 0x21#64])) ∧
    ends (step (withMove (.access (.readReg 2 1)) stopped)) (fun t => decide (t.replies = [.data 0x4E400000#64])) := by
  decide

/-- R37, R204: reset clears the fault. -/
theorem test_step_reset : ends (step (withMove (.access .reset) stopped)) (fun t =>
    decide (t.status = 0x00#8) && decide (t.fcmd = 0#32) && !writtenV t 0 && decide (slot0 t = slot0 filled)) := by decide

/-! ### Witnesses: a state and operands that meet the hypotheses of each statement together -/

theorem test_witness_DecodeOfEncodeIsTheCommand :
    wellFormed 2 (.bmask 15 1) = true ∧ wellFormed 0 (.taccx 15 4095 1023) = true := by decide

theorem test_witness_EncodeOfDecodedIsTheWord : decode 2 0x4FFFFFFF#32 = .ok (.taccx 15 4095 1023) := by decide

/-- Every clause at both ends of its range. -/
theorem test_witness_ReservedOpcodesAreIllegal :
    [0x00, 0x07, 0x10, 0x14, 0x20, 0x27, 0x30, 0x32, 0x3F].all (fun op =>
      let cmd := BitVec.ofNat 32 (op * 2 ^ 26 + 1)
      let s := withMove (.issue cmd) filled
      decide (s.script = .issue cmd :: []) && decide (halted s = false) && decide (op = (cmd.extractLsb' 26 6).toNat) &&
        decide (op = 0x00 ∨ (0x07 ≤ op ∧ op ≤ 0x10) ∨ (0x14 ≤ op ∧ op ≤ 0x20) ∨ (0x27 ≤ op ∧ op ≤ 0x30) ∨
          (0x32 ≤ op ∧ op ≤ 0x3F))) = true := by decide

/-- The lowest and the highest bit of the zero field of each format. -/
theorem test_witness_ReservedBitsAreIllegal :
    (0xC4000001#32).extractLsb' 26 6 = 0x31#6 ∧ (0xC4000001#32).extractLsb' 0 26 ≠ 0#26 ∧
    (0xC6000000#32).extractLsb' 26 6 = 0x31#6 ∧ (0xC6000000#32).extractLsb' 0 26 ≠ 0#26 ∧
    (0x04600000#32).extractLsb' 26 6 = 0x01#6 ∧ (0x04600000#32).extractLsb' 0 22 ≠ 0#22 ∧
    (0x08000001#32).extractLsb' 26 6 = 0x02#6 ∧ (0x08000001#32).extractLsb' 0 22 ≠ 0#22 ∧
    (0x19420000#32).extractLsb' 26 6 = 0x06#6 ∧ (0x19420000#32).extractLsb' 0 18 ≠ 0#18 ∧
    (0x90000001#32).extractLsb' 26 6 = 0x24#6 ∧ (0x90000001#32).extractLsb' 0 18 ≠ 0#18 ∧
    (0x0C806000#32).extractLsb' 26 6 = 0x03#6 ∧ (0x0C806000#32).extractLsb' 0 14 ≠ 0#14 ∧
    (0x8C000001#32).extractLsb' 26 6 = 0x23#6 ∧ (0x8C000001#32).extractLsb' 0 14 ≠ 0#14 ∧
    (0x94C83000#32).extractLsb' 26 6 = 0x25#6 ∧ (0x94C83000#32).extractLsb' 0 13 ≠ 0#13 ∧
    (0x98000001#32).extractLsb' 26 6 = 0x26#6 ∧ (0x98000001#32).extractLsb' 0 13 ≠ 0#13 ∧
    (0x44000200#32).extractLsb' 26 6 = 0x11#6 ∧ (0x44000200#32).extractLsb' 0 10 ≠ 0#10 ∧
    (0x48000001#32).extractLsb' 26 6 = 0x12#6 ∧ (0x48000001#32).extractLsb' 0 10 ≠ 0#10 ∧
    halted (withMove (.issue 0xC4000001#32) filled) = false := by decide

/-- `k` = NMASK, and NMASK = 0. -/
theorem test_witness_MissingMaskIsIllegal :
    halted (withMove (.issue 0x90080000#32) filled) = false ∧ (0x90080000#32).extractLsb' 26 6 = 0x24#6 ∧
    filled.params.nmask ≤ ((0x90080000#32).extractLsb' 18 4).toNat ∧
    ({ filled with params := { params2 with masks := [] } } : State).params.nmask = 0 := by decide

/-- `cnt` = 9, `slot` = TAB_SLOTS, `obase + cnt` = OUT_BYTES + 1. -/
theorem test_witness_OutOfRangeFieldsDecodeThenFault :
    (withMove (.issue (encode (.taccx 9 0 0))) filled).script = [.issue (encode (.taccx 9 0 0))] ∧
    halted filled = false ∧ 9 ≤ (9#4).toNat ∧
    (8#4).toNat ≤ 8 ∧ filled.params.tabSlots ≤ (2#12).toNat ∧
    (1#12).toNat < filled.params.tabSlots ∧ filled.params.outBytes < (3#10).toNat + (8#4).toNat := by decide

theorem test_witness_StepRunsTheDecodedCommand :
    (withMove (.issue 0x4CC00001#32) filled).script = .issue 0x4CC00001#32 :: [] ∧
    halted (withMove (.issue 0x4CC00001#32) filled) = false ∧
    decode (withMove (.issue 0x4CC00001#32) filled).params.nmask 0x4CC00001#32 = .ok (.taccx 3 0 1) := by decide

/-- One word that completes and one that faults. -/
theorem test_witness_EveryWordCompletesOrFaultsPrecisely :
    halted (withMove (.issue 0x4CC00001#32) filled) = false ∧ halted (withMove (.issue 0x4E400000#32) filled) = false ∧
    (withMove (.issue 0x4E400000#32) filled).script = .issue 0x4E400000#32 :: [] := by decide

/-- The operands of the examples of R113 to R116. -/
theorem test_witness_LaneVectorExamples :
    getV lanes 0 = ⟨0x0F0F3355#32, 0xDEADBEEF#32⟩ ∧ getV lanes 1 = ⟨0x00FF5A5A#32, 0x12345678#32⟩ := by decide

/-- Lane 63, which is true in a and false in b; two states that differ elsewhere. -/
theorem test_witness_LanesFollowTheTruthTables :
    63 < 64 ∧ (getV lanes 0).lane 63 = true ∧ (getV (setV lanes 0 ⟨0#32, 0x80000000#32⟩) 0).lane 63 = true ∧
    (getV lanes 1).lane 63 = false ∧ (getV (setV lanes 0 ⟨0#32, 0x80000000#32⟩) 1).lane 63 = false := by decide

/-- Registers as the laws' hypotheses ask for them: R118 to R122. -/
theorem test_witness_LaneVectorLaws :
    (2 : Reg) ≠ 0 ∧ (2 : Reg) ≠ 1 ∧ (3 : Reg) ≠ 0 ∧ (3 : Reg) ≠ 1 ∧ (3 : Reg) ≠ 2 ∧ (4 : Reg) ≠ 0 ∧ (4 : Reg) ≠ 1 ∧
    (4 : Reg) ≠ 2 ∧ (4 : Reg) ≠ 3 ∧ (Instr.vxor = Instr.vand ∨ Instr.vxor = Instr.vor ∨ Instr.vxor = Instr.vxor) :=
  ⟨by decide, by decide, by decide, by decide, by decide, by decide, by decide, by decide, by decide, .inr (.inr rfl)⟩

theorem test_witness_ProgramsComputeOneFunctionPerLane :
    ∀ i ∈ [Instr.vzero 15, .vones 0, .vand 2 0 1, .vor 3 2 2, .vxor 4 3 0, .vnot 4 4], isLaneVector i = true := by decide

/-- The last legal slot, the first one that is not, and the example's bytes. -/
theorem test_witness_TloadLoadsTheSlot :
    (1#12).toNat < filled.params.tabSlots ∧ filled.params.tabSlots ≤ (2#12).toNat ∧
    readTab filled 8 = 0x5A ∧ readTab filled 9 = 0x5A ∧ readTab filled 10 = 0xFF ∧ readTab filled 11 = 0x00 ∧
    readTab filled 12 = 0x78 ∧ readTab filled 13 = 0x56 ∧ readTab filled 14 = 0x34 ∧ readTab filled 15 = 0x12 := by decide

/-- The last legal slot, the first one that is not, and the example's register; for R51, R52 and R140 as well. -/
theorem test_witness_TstoreStoresTheSlot :
    (1#12).toNat < lanes.params.tabSlots ∧ lanes.params.tabSlots ≤ (2#12).toNat ∧
    getV lanes 0 = ⟨0x0F0F3355#32, 0xDEADBEEF#32⟩ ∧ 63 < 64 := by decide

/-- In range at every edge (also for R139), out of range by one at each, and the example's bytes. -/
theorem test_witness_TaccxAccumulatesPositionally :
    ((8#4).toNat ≤ 8 ∧ (1#12).toNat < filled.params.tabSlots ∧ (2#10).toNat + (8#4).toNat ≤ filled.params.outBytes) ∧
    8 < (9#4).toNat ∧ filled.params.tabSlots ≤ (2#12).toNat ∧ filled.params.outBytes < (3#10).toNat + (8#4).toNat ∧
    0 < filled.params.tabSlots ∧ 4 ≤ filled.params.outBytes ∧
    readTab filled 0 = 0x55 ∧ readTab filled 1 = 0x33 ∧ readTab filled 2 = 0x0F ∧ readOut filled 0 = 0x11 ∧
    readOut filled 1 = 0x22 ∧ readOut filled 2 = 0x33 ∧ readOut filled 3 = 0x44 ∧ readOut filled 4 = 0x55 := by decide

/-- R139, the state between the two commands: the very next state. -/
theorem test_witness_TaccxTwiceCancels (t : State) :
    t.params = t.params ∧ (∀ a, readOut t a = readOut t a) ∧ ∀ j, j < 8 → readTab t (8 * (1#12).toNat + j) =
      readTab t (8 * (1#12).toNat + j) := ⟨rfl, fun _ => rfl, fun _ _ => rfl⟩

/-- R140, the state between the two commands: another register has been written. -/
theorem test_witness_LoadAfterStoreIsTheIdentity (t : State) :
    (setV t 5 Pair.ones).params = t.params ∧ ∀ j, j < 8 → readTab (setV t 5 Pair.ones) (8 * (1#12).toNat + j) =
      readTab t (8 * (1#12).toNat + j) := ⟨rfl, fun _ _ => rfl⟩

/-- The operands of the examples of R151 to R156. -/
theorem test_witness_ByteLaneExamples :
    getB bytes 0 = ⟨0x12345678#32, 0x9ABCDEF0#32⟩ ∧ getB bytes 1 = ⟨0x0F0F0F0F#32, 0xF0F0F0F0#32⟩ ∧
    bytes.params.grain = .word ∧ getB bytes 2 = ⟨0x80402901#32, 0xFF0180C3#32⟩ ∧
    getB bytes 5 = ⟨0x80402901#32, 0xFF0180C3#32⟩ := by decide

/-- The last mask constant, the first that does not exist, and the example's byte. -/
theorem test_witness_BmaskRepeatsItsByte :
    (1#4).toNat < filled.params.nmask ∧ filled.params.nmask ≤ (2#4).toNat ∧ filled.params.masks[0]? = some 0x29#8 := by
  decide

/-- The rule's X exists for every state; the grain is 32. -/
theorem test_witness_ShiftsBitByBitAndLaneByLane :
    bytes.params.grain = .word ∧ ∃ X : Nat → Int → Byte,
      ∀ w t, X w t = if 0 ≤ t ∧ t ≤ 3 then (getB bytes 2).blane (4 * w + t.toNat) else 0x00#8 :=
  ⟨rfl, _, fun _ _ => rfl⟩

/-- 8 and 24, the smallest and the largest amount that moves whole byte lanes. -/
theorem test_witness_ShiftAmountsAtTheEnds :
    bytes.params.grain = .word ∧ (1 ≤ 1 ∧ 1 ≤ 3 ∧ (8#5).toNat = 8 * 1) ∧ (1 ≤ 3 ∧ 3 ≤ 3 ∧ (24#5).toNat = 8 * 3) := by decide

/-- Two operands with the same low word and different high words. -/
theorem test_witness_NoBitPassesBetweenTheWords :
    (setB bytes 2 ⟨0x80402901#32, 0#32⟩).params.grain = bytes.params.grain ∧
    (getB bytes 2).lo = (getB (setB bytes 2 ⟨0x80402901#32, 0#32⟩) 2).lo ∧ 30 < (31#5).toNat := by decide

/-- m + n = 31, the largest sum; and an operand that is zero. -/
theorem test_witness_ShiftsCompose :
    (15#5).toNat + (16#5).toNat = (31#5).toNat ∧ getB bytes 3 = Pair.zero := by decide

theorem test_witness_ByteGrainShiftsStayInTheirLane : bytes8.params.grain = .byteLane := by decide

/-- Two states that differ in the grain alone. -/
theorem test_witness_GrainsAgreeOnMaskedOperands :
    bytes.params.grain = .word ∧ bytes8.params.grain = .byteLane ∧ getB bytes8 2 = getB bytes 2 ∧
    (7#5).toNat ≤ 7 ∧ ¬(8#5).toNat ≤ 7 := by decide

/-- Distinct registers, and registers that hold all 0x00 and all 0xFF. -/
theorem test_witness_ByteLaneLaws :
    (6 : Reg) ≠ 0 ∧ (6 : Reg) ≠ 2 ∧ (∀ i, i < 8 → (getB bytes 3).blane i = 0x00#8) ∧
    (∀ i, i < 8 → (getB bytes 4).blane i = 0xFF#8) := by decide

theorem test_witness_SyncDoesNothing :
    (0xC4000001#32).extractLsb' 26 6 = 0x31#6 ∧ (0xC4000001#32).extractLsb' 0 26 ≠ 0#26 := by decide

/-- A halted unit to which a command is presented, and one to whose TAB the host writes. -/
theorem test_witness_HaltedUnitAcceptsNothing :
    halted (withMove (.issue 0x04400000#32) stopped) = true ∧
    (withMove (.issue 0x04400000#32) stopped).script = .issue 0x04400000#32 :: [] ∧
    ends (step (withMove (.access (.writeByte .tab 15 0x77#8)) stopped)) (fun _ => true) := by decide

/-- A faulted unit that the host resets, reads and writes. -/
theorem test_witness_OnlyResetLeavesAFault :
    faultBit (withMove (.access .reset) stopped) = true ∧
    ends (step (withMove (.access .reset) stopped)) (fun t => !faultBit t) ∧
    ends (step (withMove (.access (.writeReg 1 15 0#64)) stopped)) (fun t => faultBit t) ∧
    15 < spaceSize stopped .tab ∧ 9 < spaceSize stopped .out := by decide

/-- A step that changes FCMD by a fault, and one that changes it by a reset. -/
theorem test_witness_FcmdIsWrittenOnlyAtFaultEntry :
    ends (step (withMove (.issue 0x4E400000#32) filled)) (fun t => decide (t.fcmd ≠ filled.fcmd)) ∧
    ends (step (withMove (.access .reset) stopped)) (fun t => decide (t.fcmd ≠ stopped.fcmd)) ∧
    (faultBit filled = false ∧ filled.fcmd = 0#32) := by decide

/-- `fault_o` rising and falling. -/
theorem test_witness_FaultOutIsTheFaultBit :
    faultOut filled = false ∧ ends (step (withMove (.issue 0x4E400000#32) filled)) faultOut ∧
    faultOut stopped = true ∧ ends (step (withMove (.access .reset) stopped)) (fun t => !faultOut t) ∧
    (withMove (.access .watchFault) stopped).script = .access .watchFault :: [] := by decide

/-- A legal STATUS that a step changes. -/
theorem test_witness_StatusStaysLegal :
    StatusLegal filled ∧ StatusLegal stopped ∧
    ends (step (withMove (.issue 0x4E400000#32) filled)) (fun t => decide (t.status = 0x21#8)) ∧
    (withMove (.access (.writeReg 2 0 5#64)) stopped).script = .access (.writeReg 2 0 5#64) :: [] := by decide

/-- Each selector. -/
theorem test_witness_HostRegisterPort :
    (withMove (.access (.writeReg 0 15 5#64)) filled).script = .access (.writeReg 0 15 5#64) :: [] ∧
    (withMove (.access (.writeReg 1 0 5#64)) filled).script = .access (.writeReg 1 0 5#64) :: [] ∧
    (withMove (.access (.writeReg 3 0 5#64)) filled).script = .access (.writeReg 3 0 5#64) :: [] ∧
    (withMove (.access (.readReg 2 1)) filled).script = .access (.readReg 2 1) :: [] := by decide

/-- The last byte of each space, and the first address past it. -/
theorem test_witness_HostMemoryPort :
    15 < spaceSize filled .tab ∧ spaceSize filled .tab ≤ 16 ∧ 9 < spaceSize filled .out ∧ spaceSize filled .out ≤ 10 ∧
    (withMove (.access (.writeByte .tab 15 0x77#8)) filled).script = .access (.writeByte .tab 15 0x77#8) :: [] ∧
    (withMove (.access (.readByte .out 10)) filled).script = .access (.readByte .out 10) :: [] := by decide

theorem test_witness_ResetClearsControlAndKeepsMemory :
    (withMove (.access .reset) stopped).script = .access .reset :: [] := by decide

theorem test_witness_AfterResetTheUnitAcceptsCommands :
    decodeTableWord 32 0x04400000 = some (.vzero 1) ∧ decodeTableWord 32 0x903C0000 = some (.bmask 0 15) := by decide

/-- A step that a reset takes. -/
theorem test_witness_MaskConstantsNeverChange :
    ends (step (withMove (.access .reset) stopped)) (fun _ => true) ∧
    ends (step (withMove (.issue 0x4E400000#32) filled)) (fun _ => true) := by decide

/-- States with bytes listed and with a fault taken have the invariant, and take steps. -/
theorem test_witness_EveryStepKeepsTheInvariant :
    Inv (withMove (.issue 0x4CC00001#32) filled) ∧ Inv (withMove (.access .reset) stopped) ∧
    ends (step (withMove (.issue 0x4CC00001#32) filled)) (fun _ => true) := by decide

/-- P5's faulting word and a reset after it: the run of that word starts, and ends faulted at index 0. -/
def oneBadWord : State := { filled with script := [.issue 0x4E400000#32, .access .reset] }

/-- A program of one word, after which the host reads a register. -/
def readAfter : State := { filled with script := [.issue 0xC4000000#32, .access (.readReg 0 0)] }

/-- A state of a run in the middle of it, with a host access left, and the start of a run of the empty program. -/
theorem test_witness_RunsEndAfterAtMostOneStepPerCommand :
    InRun [0xC4000000#32] readAfter { readAfter with pc := 1, script := [.access (.readReg 0 0)] } ∧
    BeginsRun [] filled ∧
    halted ({ filled with script := [0x08000000#32, 0x4E400000#32, 0x04400000#32].map .issue } : State) = false :=
  have d : decode readAfter.params.nmask 0xC4000000#32 = .ok .sync := by decide
  have h : halted readAfter = false := by decide
  have e : step readAfter = .next { readAfter with pc := 1, script := [.access (.readReg 0 0)] } :=
    (step_decoded rfl h d).trans rfl
  ⟨⟨by decide, .snoc (.refl _) (notReset_of_issue rfl) e⟩, by decide, by decide⟩

/-- R230: with its one word completed the run has completed, the host's read still to come, and has not failed. -/
theorem test_run_completed : ends (step readAfter) (fun t =>
    runCompleted [0xC4000000#32] t && !runFaulted [0xC4000000#32] t && runOver [0xC4000000#32] t) := by decide

/-- R230: the run of a word that faults has failed at its index; the reset after it does not make the run a completed one. -/
theorem test_run_faulted :
    ends (step oneBadWord) (fun t => runFaulted [0x4E400000#32] t && !runCompleted [0x4E400000#32] t &&
      ends (step t) fun u => !runCompleted [0x4E400000#32] u && !faultBit u) := by decide

/-- A state in which `v[0]`, `v[1]` and slot 0 have been written and `v[5]`, unwritten, holds something else than in the
next one. -/
def sparse : State :=
  { lanes with tab := filled.tab.take 8, out := [(1, 0x22#8), (2, 0x33#8)],
               v := lanes.v.set 5 ⟨0x00000001#32, 0#32⟩ }

/-- `sparse` with another value in the unwritten `v[5]`, and with a byte listed that `sparse` does not list. -/
def sparse' : State := writeTab { sparse with v := sparse.v.set 5 ⟨0x00000002#32, 0#32⟩ } 9 0x44#8

theorem test_witness_DisciplinedCommandsIgnoreTheUnwritten :
    disciplined (.vand 2 0 1) sparse = true ∧ disciplined (.tload 3 0) sparse = true ∧
    disciplined (.tstore 1 1) sparse = true ∧ disciplined (.taccx 2 0 1) sparse = true ∧
    getV sparse' 5 ≠ getV sparse 5 ∧ AgreeOnWritten sparse sparse' := by
  refine ⟨by decide, by decide, by decide, by decide, by decide, fun q => rfl, fun q => rfl, by decide, by decide,
    fun a h => ?_, fun a _ => rfl, ⟨rfl, rfl⟩, ⟨rfl, rfl, rfl, rfl⟩, rfl⟩
  have e : readTab sparse' a = if a = 9 then 0x44#8 else readTab sparse a := readTab_writeTab _ 9 a _
  rw [e, if_neg]
  rintro rfl
  exact absurd h (by decide)

/-- What is not disciplined: a source register, a TAB byte and an OUT byte that nothing has written, and a slot out of
range. -/
theorem test_notDisciplined :
    disciplined (.vand 2 0 5) sparse = false ∧ disciplined (.tload 3 1) sparse = false ∧
    disciplined (.taccx 3 0 1) sparse = false ∧ disciplined (.tstore 0 2) sparse = false := by decide

end Sys2Proof.Tests
end

section
/-! What a host access and a step can do, said once, and the invariant `Inv` of the machine: one lemma for each part of the
state it speaks of, kept by every command, every host access and every step. -/

namespace Sys2Proof.Machine

/-! ### The shapes of a host access and of a step -/

/-- A host access that gives a next state gives one of six shapes: a reset, a register of either file written, nothing
changed, a reply added, or a byte written that its space has. -/
theorem hostAccess_cases {a : HostAccess} {s t : State} (h : hostAccess a s = .next t) :
    (a = .reset ∧ t = hostReset s) ∨ (∃ i p, t = setV s i p) ∨ (∃ i p, t = setB s i p) ∨ t = s ∨
    (∃ r, t = reply r s) ∨ ∃ space addr x, addr < spaceSize s space ∧ t = writeByte s space addr x := by
  cases a with
  | reset =>
    injection h with h
    exact .inl ⟨rfl, h.symm⟩
  | writeReg sel idx data =>
    injection h with h
    subst h
    unfold hostWriteReg
    split
    · exact .inr (.inl ⟨idx, _, rfl⟩)
    · exact .inr (.inr (.inl ⟨idx, _, rfl⟩))
    · exact .inr (.inr (.inr (.inl rfl)))
  | readReg sel idx =>
    injection h with h
    exact .inr (.inr (.inr (.inr (.inl ⟨_, h.symm⟩))))
  | writeByte space addr x =>
    simp only [hostAccess] at h
    split at h
    case isTrue hlt =>
      injection h with h
      exact .inr (.inr (.inr (.inr (.inr ⟨space, addr, x, hlt, h.symm⟩))))
    case isFalse => cases h
  | readByte space addr =>
    simp only [hostAccess] at h
    split at h
    case isTrue =>
      injection h with h
      exact .inr (.inr (.inr (.inr (.inl ⟨_, h.symm⟩))))
    case isFalse => cases h
  | watchFault =>
    injection h with h
    exact .inr (.inr (.inr (.inr (.inl ⟨_, h.symm⟩))))

/-- A step that gives a next state changes nothing, executes the command it accepted, takes the fault entry for a word that
does not decode, or makes a host access. -/
theorem step_cases {s t : State} (h : step s = .next t) :
    t = s ∨
    (∃ w rest i, s.script = .issue w :: rest ∧ halted s = false ∧ decode s.params.nmask w = .ok i ∧
      exec i { s with script := rest } = .next t) ∨
    (∃ w rest e, s.script = .issue w :: rest ∧ halted s = false ∧ decode s.params.nmask w = .error e ∧
      t = takeFault .illegalCommand w { s with script := rest }) ∨
    ∃ a rest, s.script = .access a :: rest ∧ hostAccess a { s with script := rest } = .next t := by
  match hs : s.script with
  | [] =>
    rw [step_nil hs] at h
    injection h with h
    exact .inl h.symm
  | .issue w :: rest =>
    cases hf : halted s with
    | true =>
      rw [step_halted hs hf] at h
      injection h with h
      exact .inl h.symm
    | false =>
      cases hd : decode s.params.nmask w with
      | ok i => exact .inr (.inl ⟨w, rest, i, rfl, rfl, hd, step_decoded hs hf hd ▸ h⟩)
      | error e =>
        rw [step_illegal hs hf hd] at h
        injection h with h
        exact .inr (.inr (.inl ⟨w, rest, e, rfl, rfl, hd, h.symm⟩))
  | .access a :: rest => exact .inr (.inr (.inr ⟨a, rest, rfl, step_access hs ▸ h⟩))

/-! ### The parts of the invariant -/

theorem MemoryLegal.write {m : List Host.Cell} {size a : Nat} (x : Byte) (h : MemoryLegal m size) (ha : a < size) :
    MemoryLegal (Memory.write m a x) size :=
  ⟨Memory.wf_write a x h.1, Memory.bounded_write x ha h.2⟩

theorem memoryLegal_nil (size : Nat) : MemoryLegal [] size := ⟨List.Pairwise.nil, by simp⟩

/-- `STATUS` = 0 is legal (R28, R37): `FAULT` and `CAUSE` are both 0. -/
theorem statusLegal_of_status_zero {s : State} (h : s.status = 0#8) : StatusLegal s := by
  unfold StatusLegal faultBit causeField
  rw [h]
  decide

/-- What the fault entry writes into `STATUS` is legal (R28, R200): every cause has a code from 1 to 4. -/
theorem statusLegal_takeFault (c : Cause) (w : Word) (s : State) : StatusLegal (takeFault c w s) := by
  have hcode : c.code ≠ 0#4 ∧ c.code.toNat ≤ 4 := by cases c <;> decide
  refine ⟨faultStatus_zeroBits c, ?_, ?_⟩
  · rw [faultBit_takeFault, causeField_takeFault]
    exact iff_of_true rfl hcode.1
  · rw [causeField_takeFault]
    exact hcode.2

/-! ### The updates of the state keep the invariant -/

section
variable {s : State}

/-- The invariant speaks of the parameters, the control registers and the two listings, and of nothing else. -/
theorem Inv.of_same_fields {t : State} (h : Inv s) (hparams : t.params = s.params) (hstatus : t.status = s.status)
    (hfcmd : t.fcmd = s.fcmd) (htab : t.tab = s.tab) (hout : t.out = s.out) : Inv t := by
  unfold Inv StatusLegal faultBit causeField at h ⊢
  rw [hparams, hstatus, hfcmd, htab, hout]
  exact h

theorem Inv.tab_legal (h : Inv s) : MemoryLegal s.tab (8 * s.params.tabSlots) := by
  obtain ⟨-, -, -, htab, -⟩ := h
  exact htab

theorem Inv.out_legal (h : Inv s) : MemoryLegal s.out s.params.outBytes := by
  obtain ⟨-, -, -, -, hout⟩ := h
  exact hout

theorem Inv.with_tab {m : List Host.Cell} (h : Inv s) (hm : MemoryLegal m (8 * s.params.tabSlots)) :
    Inv { s with tab := m } := by
  obtain ⟨hparams, hstatus, hfcmd, -, hout⟩ := h
  exact ⟨hparams, hstatus, hfcmd, hm, hout⟩

theorem Inv.with_out {m : List Host.Cell} (h : Inv s) (hm : MemoryLegal m s.params.outBytes) :
    Inv { s with out := m } := by
  obtain ⟨hparams, hstatus, hfcmd, htab, -⟩ := h
  exact ⟨hparams, hstatus, hfcmd, htab, hm⟩

theorem Inv.with_script (h : Inv s) (rest : List HostMove) : Inv { s with script := rest } :=
  h.of_same_fields rfl rfl rfl rfl rfl

theorem Inv.complete (h : Inv s) : Inv (complete s) := h.of_same_fields rfl rfl rfl rfl rfl

theorem Inv.reply (h : Inv s) (r : HostReply) : Inv (reply r s) := h.of_same_fields rfl rfl rfl rfl rfl

theorem Inv.setV (h : Inv s) (i : Reg) (p : Pair) : Inv (setV s i p) := h.of_same_fields rfl rfl rfl rfl rfl

theorem Inv.setB (h : Inv s) (i : Reg) (p : Pair) : Inv (setB s i p) := h.of_same_fields rfl rfl rfl rfl rfl

/-- The 8 bytes of a slot of the table are bytes of TAB (R31). -/
theorem Inv.writeSlot (h : Inv s) {slot : BitVec 12} (hslot : slotInRange s slot = true) (p : Pair) :
    Inv (writeSlot s slot p) := by
  have hlt : slot.toNat < s.params.tabSlots := (slotInRange_iff s slot).1 hslot
  have hbound : slotAddr slot + 8 ≤ 8 * s.params.tabSlots := by unfold slotAddr; omega
  rw [Machine.writeSlot, storeLanes_eq]
  exact h.with_tab (storeLanes_tab_legal p hbound h.tab_legal)

/-- The last check of TACCX (R134) keeps its loop inside OUT. -/
theorem Inv.accumulate (h : Inv s) {obase n : Nat} (hn : obase + n ≤ s.params.outBytes) (base : Nat) :
    Inv (accumulate s base obase n) := by
  rw [accumulate_eq]
  exact h.with_out (accumulate_out_legal hn h.out_legal)

/-- A byte that its space has is a byte the listing may name (R59). -/
theorem Inv.writeByte (h : Inv s) {space : Space} {addr : Nat} (haddr : addr < spaceSize s space) (x : Byte) :
    Inv (writeByte s space addr x) := by
  cases space with
  | tab => exact h.with_tab (h.tab_legal.write x haddr)
  | out => exact h.with_out (h.out_legal.write x haddr)

/-- Fault entry sets `FAULT`, so the word it puts in `FCMD` breaks no condition (R29, R200). -/
theorem Inv.takeFault (h : Inv s) (c : Cause) (w : Word) : Inv (takeFault c w s) := by
  obtain ⟨hparams, -, -, htab, hout⟩ := h
  refine ⟨hparams, statusLegal_takeFault c w s, fun hfault => ?_, htab, hout⟩
  rw [faultBit_takeFault] at hfault
  cases hfault

/-- A reset clears the control registers and touches neither memory nor the parameters (R37, R40). -/
theorem Inv.hostReset (h : Inv s) : Inv (hostReset s) := by
  obtain ⟨hparams, -, -, htab, hout⟩ := h
  exact ⟨hparams, statusLegal_of_status_zero rfl, fun _ => rfl, htab, hout⟩

end

/-! ### Commands, host accesses and steps keep the invariant -/

theorem exec_keeps_inv {i : Instr} {s t : State} (h : Inv s) (he : exec i s = .next t) : Inv t := by
  rcases exec_cases i s with ⟨rd, p, hx⟩ | ⟨rd, p, hx⟩ | ⟨slot, p, hslot, hx⟩ | ⟨cnt, slot, obase, hc, hx⟩ | hx | ⟨c, hx⟩
    <;> (rw [hx] at he; injection he with he; subst he)
  · exact (h.setV rd p).complete
  · exact (h.setB rd p).complete
  · exact (h.writeSlot hslot p).complete
  · obtain ⟨-, -, hout⟩ := (taccxCheck_none_iff s cnt slot obase).1 hc
    exact (h.accumulate hout _).complete
  · exact h.complete
  · exact h.takeFault c _

theorem hostAccess_keeps_inv {a : HostAccess} {s t : State} (h : Inv s) (ha : hostAccess a s = .next t) : Inv t := by
  rcases hostAccess_cases ha with ⟨-, rfl⟩ | ⟨i, p, rfl⟩ | ⟨i, p, rfl⟩ | rfl | ⟨r, rfl⟩ | ⟨space, addr, x, haddr, rfl⟩
  · exact h.hostReset
  · exact h.setV i p
  · exact h.setB i p
  · exact h
  · exact h.reply r
  · exact h.writeByte haddr x

theorem step_keeps_inv {s t : State} (h : Inv s) (hs : step s = .next t) : Inv t := by
  rcases step_cases hs with rfl | ⟨w, rest, i, -, -, -, he⟩ | ⟨w, rest, e, -, -, -, rfl⟩ | ⟨a, rest, -, ha⟩
  · exact h
  · exact exec_keeps_inv (h.with_script rest) he
  · exact (h.with_script rest).takeFault .illegalCommand w
  · exact hostAccess_keeps_inv (h.with_script rest) ha

/-! ### The reset state -/

/-- The parameters the reset state names are the largest that R8 allows (log 1). -/
theorem resetParams_valid : Config.resetParams.Valid := by decide

theorem inv_reset : Inv State.reset :=
  ⟨resetParams_valid, statusLegal_of_status_zero rfl, fun _ => rfl, memoryLegal_nil _, memoryLegal_nil _⟩

/-- Settles O57: a step executes a command, takes a fault, makes a host access or changes nothing, and each keeps `Inv`. -/
theorem everyStepKeepsTheInvariant : Obligations.EveryStepKeepsTheInvariant :=
  fun _ _ h hs => step_keeps_inv h hs

/-- Settles O58: control registers at 0, nothing listed in memory, and the largest parameters of R8. -/
theorem resetHasTheInvariant : Obligations.ResetHasTheInvariant :=
  inv_reset

end Sys2Proof.Machine
end

section
/-! What a command does, as a value computed from what the command reads. Two states that a command reads alike suffer the
same effect: that is how a command cannot depend on `STATUS`, on `FCMD`, or on what nothing has written (spec/10_state.md
R25, R28, R29). -/

namespace Sys2Proof.Machine

/-! ### The effect of a command -/

/-- What a command does to the state once it has read its operands. -/
inductive Effect where
  /-- `v[rd] <- P` and completion -/
  | setV (rd : Reg) (p : Pair)
  /-- `b[rd] <- P` and completion -/
  | setB (rd : Reg) (p : Pair)
  /-- a slot written and completion (R132) -/
  | writeSlot (slot : BitVec 12) (p : Pair)
  /-- the loop of TACCX and completion (R133) -/
  | accumulate (slot : BitVec 12) (obase : BitVec 10) (cnt : BitVec 4)
  /-- completion alone (R180) -/
  | nothing
  /-- the fault entry (R200) -/
  | fault (c : Cause) (cmd : Word)

/-- The state after an effect. -/
def Effect.apply (e : Effect) (s : State) : State :=
  match e with
  | .setV rd p => complete (Machine.setV s rd p)
  | .setB rd p => complete (Machine.setB s rd p)
  | .writeSlot slot p => complete (Machine.writeSlot s slot p)
  | .accumulate slot obase cnt => complete (Machine.accumulate s (slotAddr slot) obase.toNat cnt.toNat)
  | .nothing => complete s
  | .fault c cmd => takeFault c cmd s

/-- The effect of each command in a state. -/
def effect (i : Instr) (s : State) : Effect :=
  match i with
  | .vzero rd => .setV rd .zero
  | .vones rd => .setV rd .ones
  | .vand rd ra rb => .setV rd ((getV s ra).and (getV s rb))
  | .vor rd ra rb => .setV rd ((getV s ra).or (getV s rb))
  | .vxor rd ra rb => .setV rd ((getV s ra).xor (getV s rb))
  | .vnot rd ra => .setV rd (getV s ra).not
  | .tload r slot => if slotInRange s slot then .setV r (readSlot s slot) else .fault .slotRange (encode (.tload r slot))
  | .tstore r slot => if slotInRange s slot then .writeSlot slot (getV s r) else .fault .slotRange (encode (.tstore r slot))
  | .taccx cnt slot obase =>
    match taccxCheck s cnt slot obase with
    | some c => .fault c (encode (.taccx cnt slot obase))
    | none => .accumulate slot obase cnt
  | .band rd ra rb => .setB rd ((getB s ra).and (getB s rb))
  | .bor rd ra rb => .setB rd ((getB s ra).or (getB s rb))
  | .bxor rd ra rb => .setB rd ((getB s ra).xor (getB s rb))
  | .bmask rd k =>
    match maskByte s k with
    | some m => .setB rd (.ofLanes fun _ => m)
    | none => .fault .illegalCommand (encode (.bmask rd k))
  | .bshl rd ra n => .setB rd ((getB s ra).shiftLeft s.params.grain n.toNat)
  | .bshr rd ra n => .setB rd ((getB s ra).shiftRight s.params.grain n.toNat)
  | .sync => .nothing

/-- The meaning of every command is to apply its effect. -/
theorem exec_eq_apply_effect (i : Instr) (s : State) : exec i s = .next ((effect i s).apply s) := by
  cases i
  case tload r slot =>
    simp only [exec, execTload, effect]
    split <;> rfl
  case tstore r slot =>
    simp only [exec, execTstore, effect]
    split <;> rfl
  case taccx cnt slot obase =>
    cases h : taccxCheck s cnt slot obase <;> (simp only [exec, execTaccx, effect, h]; rfl)
  case bmask rd k =>
    cases h : maskByte s k <;> (simp only [exec, execBmask, effect, h]; rfl)
  all_goals rfl

end Sys2Proof.Machine
end

section
/-! The statement of spec/70_reset_and_hazards.md R236 about one command: from two states that agree on what counts as
written, a disciplined command has one effect, and that effect keeps the agreement. -/

namespace Sys2Proof.Machine

theorem allListed_iff (m : List Host.Cell) (base n : Nat) :
    allListed m base n = true ↔ ∀ j, j < n → (Memory.read m (base + j)).isSome = true := by
  simp [allListed]

/-! ### What a disciplined command may do -/

/-- An effect that takes no fault, and whose loop over OUT reads only bytes that have been written. -/
def Effect.Disciplined (e : Effect) (s : State) : Prop :=
  match e with
  | .setV _ _ | .setB _ _ | .writeSlot _ _ | .nothing => True
  | .accumulate slot obase cnt =>
    allListed s.tab (slotAddr slot) cnt.toNat = true ∧ allListed s.out obase.toNat cnt.toNat = true
  | .fault _ _ => False

theorem disciplined_iff (i : Instr) (s : State) :
    disciplined i s = true ↔ sourcesWritten i s = true ∧ bytesWritten i s = true ∧ inRange i s = true := by
  simp [disciplined, and_assoc]

theorem effect_disciplined {i : Instr} {s : State} (hd : disciplined i s = true) : (effect i s).Disciplined s := by
  obtain ⟨-, hbytes, hrange⟩ := (disciplined_iff i s).1 hd
  cases i
  case tload r slot =>
    rw [effect, if_pos (show slotInRange s slot = true from hrange)]
    trivial
  case tstore r slot =>
    rw [effect, if_pos (show slotInRange s slot = true from hrange)]
    trivial
  case taccx cnt slot obase =>
    have hcheck : taccxCheck s cnt slot obase = none := Option.isNone_iff_eq_none.1 hrange
    simp only [effect, hcheck]
    exact Bool.and_eq_true_iff.1 hbytes
  case bmask rd k =>
    have hk : k.toNat < s.params.masks.length := of_decide_eq_true hrange
    have hmask : maskByte s k = some s.params.masks[k.toNat] := List.getElem?_eq_getElem hk
    simp only [effect, hmask]
    trivial
  all_goals trivial

/-- An effect without a fault moves the host's index on and leaves the control registers (R26). -/
theorem Effect.Disciplined.completes {e : Effect} {s : State} (he : e.Disciplined s) :
    (e.apply s).pc = s.pc + 1 ∧ SameControl s (e.apply s) := by
  cases e with
  | setV rd p => exact ⟨rfl, rfl, rfl⟩
  | setB rd p => exact ⟨rfl, rfl, rfl⟩
  | writeSlot slot p =>
    obtain ⟨m, hm⟩ := writeSlot_writes_tab s slot p
    rw [Effect.apply, hm]
    exact ⟨rfl, rfl, rfl⟩
  | accumulate slot obase cnt =>
    obtain ⟨m, hm⟩ := accumulate_writes_out s (slotAddr slot) obase.toNat cnt.toNat
    rw [Effect.apply, hm]
    exact ⟨rfl, rfl, rfl⟩
  | nothing => exact ⟨rfl, rfl, rfl⟩
  | fault c cmd => exact he.elim

/-! ### The agreement on what is written -/

section
variable {s u : State}

theorem AgreeOnWritten.params_eq (h : AgreeOnWritten s u) : u.params = s.params := by
  obtain ⟨-, -, -, -, -, -, -, ⟨hparams, -⟩, -⟩ := h
  exact hparams

theorem AgreeOnWritten.getV_eq (h : AgreeOnWritten s u) {q : Reg} (hq : writtenV s q = true) : getV u q = getV s q := by
  obtain ⟨-, -, hv, -⟩ := h
  exact hv q hq

theorem AgreeOnWritten.getB_eq (h : AgreeOnWritten s u) {q : Reg} (hq : writtenB s q = true) : getB u q = getB s q := by
  obtain ⟨-, -, -, hb, -⟩ := h
  exact hb q hq

theorem AgreeOnWritten.readTab_eq (h : AgreeOnWritten s u) {a : Nat} (ha : (Memory.read s.tab a).isSome = true) :
    readTab u a = readTab s a := by
  obtain ⟨-, -, -, -, htab, -⟩ := h
  exact htab a ha

theorem AgreeOnWritten.readOut_eq (h : AgreeOnWritten s u) {a : Nat} (ha : (Memory.read s.out a).isSome = true) :
    readOut u a = readOut s a := by
  obtain ⟨-, -, -, -, -, hout, -⟩ := h
  exact hout a ha

theorem AgreeOnWritten.slotInRange_eq (h : AgreeOnWritten s u) (slot : BitVec 12) :
    slotInRange u slot = slotInRange s slot := by
  rw [slotInRange, slotInRange, h.params_eq]

/-- A slot whose 8 bytes have been written holds the same pair in both states. -/
theorem AgreeOnWritten.readSlot_eq (h : AgreeOnWritten s u) {slot : BitVec 12}
    (hslot : allListed s.tab (slotAddr slot) 8 = true) : readSlot u slot = readSlot s slot :=
  Pair.ofLanes_congr fun j hj => h.readTab_eq ((allListed_iff _ _ _).1 hslot j hj)

/-- All that a disciplined command reads has been written, so it has the same effect in both states. -/
theorem AgreeOnWritten.effect_eq (h : AgreeOnWritten s u) {i : Instr} (hd : disciplined i s = true) :
    effect i u = effect i s := by
  obtain ⟨hsources, hbytes, -⟩ := (disciplined_iff i s).1 hd
  have hp : u.params = s.params := h.params_eq
  cases i
  case vzero | vones | sync => rfl
  case vand rd ra rb | vor rd ra rb | vxor rd ra rb =>
    obtain ⟨ha, hb⟩ := Bool.and_eq_true_iff.1 hsources
    simp only [effect, h.getV_eq ha, h.getV_eq hb]
  case vnot rd ra => simp only [effect, h.getV_eq hsources]
  case tload r slot => simp only [effect, h.slotInRange_eq, h.readSlot_eq hbytes]
  case tstore r slot => simp only [effect, h.slotInRange_eq, h.getV_eq hsources]
  case taccx cnt slot obase => simp only [effect, taccxCheck, hp]
  case band rd ra rb | bor rd ra rb | bxor rd ra rb =>
    obtain ⟨ha, hb⟩ := Bool.and_eq_true_iff.1 hsources
    simp only [effect, h.getB_eq ha, h.getB_eq hb]
  case bmask rd k => simp only [effect, maskByte, hp]
  case bshl rd ra n | bshr rd ra n => simp only [effect, hp, h.getB_eq hsources]

/-! ### The updates keep the agreement -/

theorem AgreeOnWritten.complete (h : AgreeOnWritten s u) : AgreeOnWritten (complete s) (complete u) := by
  obtain ⟨hvw, hbw, hv, hb, htab, hout, hcontrol, hhost, hpc⟩ := h
  exact ⟨hvw, hbw, hv, hb, htab, hout, hcontrol, hhost, congrArg (· + 1) hpc⟩

theorem AgreeOnWritten.setV (h : AgreeOnWritten s u) (rd : Reg) (p : Pair) :
    AgreeOnWritten (setV s rd p) (setV u rd p) := by
  obtain ⟨hvw, hbw, hv, hb, htab, hout, hcontrol, hhost, hpc⟩ := h
  refine ⟨fun q => ?_, hbw, fun q hq => ?_, hb, htab, hout, hcontrol, hhost, hpc⟩ <;>
    rcases eq_or_ne q rd with rfl | hne
  · rw [writtenV_setV_same, writtenV_setV_same]
  · rw [writtenV_setV_other _ _ _ hne, writtenV_setV_other _ _ _ hne, hvw]
  · rw [getV_setV_same, getV_setV_same]
  · rw [writtenV_setV_other _ _ _ hne] at hq
    rw [getV_setV_other _ _ _ hne, getV_setV_other _ _ _ hne, hv q hq]

theorem AgreeOnWritten.setB (h : AgreeOnWritten s u) (rd : Reg) (p : Pair) :
    AgreeOnWritten (setB s rd p) (setB u rd p) := by
  obtain ⟨hvw, hbw, hv, hb, htab, hout, hcontrol, hhost, hpc⟩ := h
  refine ⟨hvw, fun q => ?_, hv, fun q hq => ?_, htab, hout, hcontrol, hhost, hpc⟩ <;>
    rcases eq_or_ne q rd with rfl | hne
  · rw [writtenB_setB_same, writtenB_setB_same]
  · rw [writtenB_setB_other _ _ _ hne, writtenB_setB_other _ _ _ hne, hbw]
  · rw [getB_setB_same, getB_setB_same]
  · rw [writtenB_setB_other _ _ _ hne] at hq
    rw [getB_setB_other _ _ _ hne, getB_setB_other _ _ _ hne, hb q hq]

/-- A slot written lists its 8 bytes, which are then the same in both states; every other byte stays. -/
theorem AgreeOnWritten.writeSlot (h : AgreeOnWritten s u) (slot : BitVec 12) (p : Pair) :
    AgreeOnWritten (writeSlot s slot p) (writeSlot u slot p) := by
  have hread : ∀ a, (Memory.read (Machine.writeSlot s slot p).tab a).isSome = true →
      readTab (Machine.writeSlot u slot p) a = readTab (Machine.writeSlot s slot p) a := by
    intro a ha
    rw [readTab_writeSlot, readTab_writeSlot]
    split_ifs with hin
    · rfl
    · rw [Machine.writeSlot, isSome_read_storeLanes, decide_eq_false hin, Bool.false_or] at ha
      exact h.readTab_eq ha
  obtain ⟨m, hm⟩ := writeSlot_writes_tab s slot p
  obtain ⟨m', hm'⟩ := writeSlot_writes_tab u slot p
  rw [hm, hm'] at hread ⊢
  obtain ⟨hvw, hbw, hv, hb, -, hout, hcontrol, hhost, hpc⟩ := h
  exact ⟨hvw, hbw, hv, hb, hread, hout, hcontrol, hhost, hpc⟩

/-- The loop of TACCX over written bytes gives the same bytes in both states; every other byte stays. -/
theorem AgreeOnWritten.accumulate (h : AgreeOnWritten s u) {base obase n : Nat}
    (htab : allListed s.tab base n = true) (hout : allListed s.out obase n = true) :
    AgreeOnWritten (accumulate s base obase n) (accumulate u base obase n) := by
  rw [allListed_iff] at htab hout
  have hread : ∀ a, (Memory.read (Machine.accumulate s base obase n).out a).isSome = true →
      readOut (Machine.accumulate u base obase n) a = readOut (Machine.accumulate s base obase n) a := by
    intro a ha
    rw [readOut_accumulate, readOut_accumulate]
    split_ifs with hin
    · obtain ⟨j, rfl⟩ := Nat.exists_eq_add_of_le hin.1
      have hj : j < n := by omega
      rw [Nat.add_sub_cancel_left, h.readOut_eq (hout j hj), h.readTab_eq (htab j hj)]
    · rw [isSome_read_accumulate, decide_eq_false hin, Bool.false_or] at ha
      exact h.readOut_eq ha
  obtain ⟨m, hm⟩ := accumulate_writes_out s base obase n
  obtain ⟨m', hm'⟩ := accumulate_writes_out u base obase n
  rw [hm, hm'] at hread ⊢
  obtain ⟨hvw, hbw, hv, hb, htab', -, hcontrol, hhost, hpc⟩ := h
  exact ⟨hvw, hbw, hv, hb, htab', hread, hcontrol, hhost, hpc⟩

theorem AgreeOnWritten.apply (h : AgreeOnWritten s u) {e : Effect} (he : e.Disciplined s) :
    AgreeOnWritten (e.apply s) (e.apply u) := by
  cases e with
  | setV rd p => exact (h.setV rd p).complete
  | setB rd p => exact (h.setB rd p).complete
  | writeSlot slot p => exact (h.writeSlot slot p).complete
  | accumulate slot obase cnt => exact (h.accumulate he.1 he.2).complete
  | nothing => exact h.complete
  | fault c cmd => exact he.elim

end

/-- Settles O60: the command has one effect in both states, it completes, and it keeps the agreement. -/
theorem disciplinedCommandsIgnoreTheUnwritten : Obligations.DisciplinedCommandsIgnoreTheUnwritten := by
  intro i s u hd h
  have he : (effect i s).Disciplined s := effect_disciplined hd
  obtain ⟨hpc, hcontrol⟩ := he.completes
  exact ⟨_, _, exec_eq_apply_effect i s, h.effect_eq hd ▸ exec_eq_apply_effect i u, hpc, hcontrol, h.apply he⟩

end Sys2Proof.Machine
end

section
/-! The word a decoded command came from (spec/30_encoding.md R82, R93): encoding the fields of a word gives the word back. -/

namespace Sys2Proof

/-! ### A word is made of its fields -/

/-- Two adjacent fields are one. -/
theorem join_fields {start m n : Nat} (x : Word) (mid : Nat) (h : mid = start + n) :
    x.extractLsb' mid m ++ x.extractLsb' start n = x.extractLsb' start (m + n) :=
  BitVec.extractLsb'_append_extractLsb'_eq_extractLsb' h

section
variable {op : Opcode} {w : Word} (hop : op.code = opField w)
include hop

theorem encodeZ_fields (hz : w.extractLsb' 0 26 = 0#26) : encodeZ op = w := by
  rw [encodeZ, ← hz, hop, opField, join_fields w 26 rfl]
  exact BitVec.extractLsb'_eq_self

theorem encodeD_fields (hz : w.extractLsb' 0 22 = 0#22) : encodeD op (rdField w) = w := by
  rw [encodeD, ← hz, hop, opField, rdField, join_fields w 26 rfl, join_fields w 22 rfl]
  exact BitVec.extractLsb'_eq_self

theorem encodeDA_fields (hz : w.extractLsb' 0 18 = 0#18) : encodeDA op (rdField w) (raField w) = w := by
  rw [encodeDA, ← hz, hop, opField, rdField, raField, join_fields w 26 rfl, join_fields w 22 rfl, join_fields w 18 rfl]
  exact BitVec.extractLsb'_eq_self

theorem encodeDAB_fields (hz : w.extractLsb' 0 14 = 0#14) :
    encodeDAB op (rdField w) (raField w) (rbField w) = w := by
  rw [encodeDAB, ← hz, hop, opField, rdField, raField, rbField, join_fields w 26 rfl, join_fields w 22 rfl,
    join_fields w 18 rfl, join_fields w 14 rfl]
  exact BitVec.extractLsb'_eq_self

theorem encodeDK_fields (hz : w.extractLsb' 0 18 = 0#18) : encodeDK op (rdField w) (kField w) = w :=
  encodeDA_fields hop hz

theorem encodeDAN_fields (hz : w.extractLsb' 0 13 = 0#13) : encodeDAN op (rdField w) (raField w) (nField w) = w := by
  rw [encodeDAN, ← hz, hop, opField, rdField, raField, nField, join_fields w 26 rfl, join_fields w 22 rfl,
    join_fields w 18 rfl, join_fields w 13 rfl]
  exact BitVec.extractLsb'_eq_self

theorem encodeRS_fields (hz : w.extractLsb' 0 10 = 0#10) : encodeRS op (rdField w) (slotField w) = w := by
  rw [encodeRS, ← hz, hop, opField, rdField, slotField, join_fields w 26 rfl, join_fields w 22 rfl,
    join_fields w 10 rfl]
  exact BitVec.extractLsb'_eq_self

theorem encodeNSO_fields : encodeNSO op (cntField w) (slotField w) (obaseField w) = w := by
  rw [encodeNSO, hop, opField, cntField, slotField, obaseField, join_fields w 26 rfl, join_fields w 22 rfl,
    join_fields w 10 rfl]
  exact BitVec.extractLsb'_eq_self

end

/-! ### What a word that decodes is -/

/-- The checks of R94 that a word has passed when it decodes, and the command it decodes to. -/
theorem decode_ok {nmask : Nat} {w : Word} {i : Instr} (h : decode nmask w = .ok i) :
    ∃ op, Opcode.ofCode (opField w) = some op ∧ w.extractLsb' 0 op.format.zeroBits = 0#op.format.zeroBits ∧
      ¬(op = .bmask ∧ nmask ≤ (kField w).toNat) ∧ i = op.build w := by
  unfold decode at h
  split at h
  case h_1 => cases h
  case h_2 op hop =>
    split_ifs at h with hzero hmask
    injection h with h
    refine ⟨op, hop, ?_, hmask, h.symm⟩
    simpa [zeroFieldIsZero] using hzero

/-- Every word that decodes is the word of the command it decodes to (R82, R93; log 10). -/
theorem encode_of_decode {nmask : Nat} {w : Word} {i : Instr} (h : decode nmask w = .ok i) : encode i = w := by
  obtain ⟨op, hop, hz, -, rfl⟩ := decode_ok h
  have hcode : op.code = opField w := Opcode.code_of_ofCode hop
  cases op with
  | vzero | vones => exact encodeD_fields hcode hz
  | vand | vor | vxor | band | bor | bxor => exact encodeDAB_fields hcode hz
  | vnot => exact encodeDA_fields hcode hz
  | tload | tstore => exact encodeRS_fields hcode hz
  | taccx => exact encodeNSO_fields hcode
  | bmask => exact encodeDK_fields hcode hz
  | bshl | bshr => exact encodeDAN_fields hcode hz
  | sync => exact encodeZ_fields hcode hz

end Sys2Proof
end

section
/-! The control registers (spec/10_state.md R28, R29): a step leaves them, clears them at a reset, or enters a fault with the
word presented; no command reads them. -/

namespace Sys2Proof.Machine

/-! ### What a step does to the control registers and to the parameters -/

/-- A step leaves `STATUS` and `FCMD`, or is a reset, or is the fault entry of the word presented to a unit without a fault. -/
theorem step_control {s t : State} (h : step s = .next t) :
    SameControl s t ∨
    (SameControl (hostReset s) t ∧ ∃ rest, s.script = .access .reset :: rest) ∨
    ∃ c w, SameControl (takeFault c w s) t ∧ faultBit s = false ∧ ∃ rest, s.script = .issue w :: rest := by
  rcases step_cases h with rfl | ⟨w, rest, i, hs, hf, hd, he⟩ | ⟨w, rest, e, hs, hf, -, rfl⟩ | ⟨a, rest, hs, ha⟩
  · exact .inl ⟨rfl, rfl⟩
  · obtain ⟨t', ht', -, ⟨-, hcontrol, -⟩ | ⟨c, rfl⟩⟩ := exec_completes_or_faults i { s with script := rest } <;>
      (rw [he] at ht'; injection ht' with ht'; subst ht')
    · exact .inl hcontrol
    · exact .inr (.inr ⟨c, w, ⟨rfl, encode_of_decode hd⟩, hf, rest, hs⟩)
  · exact .inr (.inr ⟨.illegalCommand, w, ⟨rfl, rfl⟩, hf, rest, hs⟩)
  · by_cases hreset : a = .reset
    · subst hreset
      injection ha with ha
      subst ha
      exact .inr (.inl ⟨⟨rfl, rfl⟩, rest, hs⟩)
    · obtain ⟨-, -, hcontrol⟩ := hostAccess_keeps hreset ha
      exact .inl hcontrol

theorem exec_params {i : Instr} {s t : State} (h : exec i s = .next t) : t.params = s.params := by
  obtain ⟨t', ht', -, ⟨-, -, hparams, -⟩ | ⟨c, rfl⟩⟩ := exec_completes_or_faults i s <;>
    (rw [h] at ht'; injection ht' with ht'; subst ht')
  · exact hparams
  · rfl

theorem hostAccess_params {a : HostAccess} {s t : State} (h : hostAccess a s = .next t) : t.params = s.params := by
  rcases hostAccess_cases h with ⟨-, rfl⟩ | ⟨i, p, rfl⟩ | ⟨i, p, rfl⟩ | rfl | ⟨r, rfl⟩ | ⟨space, addr, x, -, rfl⟩
  case inr.inr.inr.inr.inr => cases space <;> rfl
  all_goals rfl

/-- No step changes the parameters of the unit (R8; log 1). -/
theorem step_params {s t : State} (h : step s = .next t) : t.params = s.params := by
  rcases step_cases h with rfl | ⟨w, rest, i, -, -, -, he⟩ | ⟨w, rest, e, -, -, -, rfl⟩ | ⟨a, rest, -, ha⟩
  · rfl
  · exact (exec_params he :)
  · rfl
  · exact (hostAccess_params ha :)

/-! ### `FAULT` and a legal `STATUS` are read off `STATUS` -/

theorem faultBit_congr {s t : State} (h : SameControl s t) : faultBit t = faultBit s := by
  rw [faultBit, faultBit, h.1]

theorem StatusLegal.congr {s t : State} (hs : StatusLegal s) (h : SameControl s t) : StatusLegal t := by
  unfold StatusLegal faultBit causeField at hs ⊢
  rw [h.1]
  exact hs

@[simp] theorem faultBit_hostReset (s : State) : faultBit (hostReset s) = false := by
  rw [faultBit, hostReset_status]
  decide

/-- A host write to the control registers, or to the reserved selector, is ignored (R36). -/
theorem step_writeReg_ignored {s : State} {sel : BitVec 2} {idx : Reg} {data : BitVec 64} {rest : List HostMove}
    (hsel : sel = 2 ∨ sel = 3) (h : s.script = .access (.writeReg sel idx data) :: rest) :
    step s = .next { s with script := rest } := by
  rw [step_access h]
  rcases hsel with rfl | rfl <;> rfl

/-! ### No command reads the control registers -/

/-- The state with other contents of `STATUS` and `FCMD`. -/
def withControl (s : State) (status : BitVec 8) (fcmd : Word) : State := { s with status := status, fcmd := fcmd }

theorem effect_withControl (i : Instr) (s : State) (x : BitVec 8) (y : Word) :
    effect i (withControl s x y) = effect i s := by
  cases i <;> rfl

theorem writeSlot_withControl (s : State) (x : BitVec 8) (y : Word) (slot : BitVec 12) (p : Pair) :
    writeSlot (withControl s x y) slot p = withControl (writeSlot s slot p) x y := rfl

theorem accumulate_withControl (s : State) (x : BitVec 8) (y : Word) (base obase n : Nat) :
    accumulate (withControl s x y) base obase n = withControl (accumulate s base obase n) x y := by
  induction n with
  | zero => rfl
  | succ n ih =>
    rw [accumulate, accumulate, ih]
    rfl

/-- Whatever `STATUS` and `FCMD` held, a command does the same: it leaves them, or it overwrites both in a fault entry. -/
theorem exec_withControl (i : Instr) (s : State) (x : BitVec 8) (y : Word) :
    ∃ t, exec i s = .next t ∧
      ((SameControl s t ∧ exec i (withControl s x y) = .next (withControl t x y)) ∨
        exec i (withControl s x y) = .next t) := by
  refine ⟨_, exec_eq_apply_effect i s, ?_⟩
  rw [exec_eq_apply_effect, effect_withControl]
  cases effect i s with
  | setV rd p => exact .inl ⟨⟨rfl, rfl⟩, rfl⟩
  | setB rd p => exact .inl ⟨⟨rfl, rfl⟩, rfl⟩
  | writeSlot slot p =>
    obtain ⟨m, hm⟩ := writeSlot_writes_tab s slot p
    rw [Effect.apply, Effect.apply, writeSlot_withControl, hm]
    exact .inl ⟨⟨rfl, rfl⟩, rfl⟩
  | accumulate slot obase cnt =>
    rw [Effect.apply, Effect.apply, accumulate_withControl, accumulate_eq]
    exact .inl ⟨⟨rfl, rfl⟩, rfl⟩
  | nothing => exact .inl ⟨⟨rfl, rfl⟩, rfl⟩
  | fault c cmd => exact .inr rfl

/-- The contents of `STATUS` and `FCMD` reach nothing else by a command, and neither reaches the other. -/
theorem exec_ignores_control (i : Instr) (s : State) (x : BitVec 8) (y : Word) :
    ∃ t u, exec i s = .next t ∧ exec i (withControl s x y) = .next u ∧
      SameV t u ∧ SameB t u ∧ SameTab t u ∧ SameOut t u ∧ SameHost t u ∧ u.pc = t.pc ∧
      (x = s.status → u.status = t.status) ∧ (y = s.fcmd → u.fcmd = t.fcmd) := by
  obtain ⟨t, ht, ⟨⟨hstatus, hfcmd⟩, hx⟩ | hx⟩ := exec_withControl i s x y
  · exact ⟨t, _, ht, hx, fun _ => ⟨rfl, rfl⟩, fun _ => ⟨rfl, rfl⟩, fun _ => rfl, fun _ => rfl, ⟨rfl, rfl, rfl, rfl⟩, rfl,
      fun h => h.trans hstatus.symm, fun h => h.trans hfcmd.symm⟩
  · exact ⟨t, t, ht, hx, fun _ => ⟨rfl, rfl⟩, fun _ => ⟨rfl, rfl⟩, fun _ => rfl, fun _ => rfl, ⟨rfl, rfl, rfl, rfl⟩, rfl,
      fun _ => rfl, fun _ => rfl⟩

end Sys2Proof.Machine
end

section
/-! FCMD, STATUS and the mask constants along the steps (spec/10_state.md R28, R29, R41). -/

namespace Sys2Proof.Machine

/-- What a step does to FCMD (R29), along the three cases of `step_control`. -/
theorem step_fcmd {s t : State} (h : step s = .next t) :
    (t.fcmd ≠ s.fcmd → (∃ rest, s.script = .access .reset :: rest) ∨
      (faultBit s = false ∧ faultBit t = true ∧ ∃ rest, s.script = .issue t.fcmd :: rest)) ∧
    (faultBit s = false → faultBit t = true → ∃ rest, s.script = .issue t.fcmd :: rest) ∧
    ((faultBit s = false → s.fcmd = 0#32) → faultBit t = false → t.fcmd = 0#32) := by
  rcases step_control h with hsame | ⟨hreset, hscript⟩ | ⟨c, w, hfault, hs, hscript⟩
  · have hbit : faultBit t = faultBit s := faultBit_congr hsame
    refine ⟨fun hne => absurd hsame.2 hne, fun h0 h1 => ?_, fun hinv ht => hsame.2.trans (hinv (hbit ▸ ht))⟩
    rw [hbit, h0] at h1
    cases h1
  · have hbit : faultBit t = false := (faultBit_congr hreset).trans (faultBit_hostReset s)
    refine ⟨fun _ => .inl hscript, fun _ h1 => ?_, fun _ _ => hreset.2⟩
    rw [hbit] at h1
    cases h1
  · have hbit : faultBit t = true := (faultBit_congr hfault).trans (faultBit_takeFault c w s)
    obtain rfl : t.fcmd = w := hfault.2
    refine ⟨fun _ => .inr ⟨hs, hbit, hscript⟩, fun _ _ => hscript, fun _ h0 => ?_⟩
    rw [hbit] at h0
    cases h0

/-- Settles O49: of the three things a step does to the control registers only the fault entry and a reset change FCMD. -/
theorem fcmdIsWrittenOnlyAtFaultEntry : Obligations.FcmdIsWrittenOnlyAtFaultEntry := by
  refine ⟨fun s t h => step_fcmd h, fun s data rest h => step_writeReg_ignored (.inl rfl) h, fun i s x => ?_⟩
  obtain ⟨t, u, ht, hu, hv, hb, htab, hout, hhost, hpc, hstatus, -⟩ := exec_ignores_control i s s.status x
  exact ⟨t, u, ht, hu, hv, hb, htab, hout, hstatus rfl, hhost, hpc⟩

/-! ### STATUS -/

theorem step_statusLegal {s t : State} (hs : StatusLegal s) (h : step s = .next t) : StatusLegal t := by
  rcases step_control h with hsame | ⟨hreset, -⟩ | ⟨c, w, hfault, -, -⟩
  · exact hs.congr hsame
  · exact (statusLegal_of_status_zero (hostReset_status s)).congr hreset
  · exact (statusLegal_takeFault c w s).congr hfault

/-- `FAULT` is sticky: only a reset clears it (R28, R204). -/
theorem step_fault_sticky {s t : State} (h : step s = .next t) (hs : faultBit s = true) :
    faultBit t = true ∨ ∃ rest, s.script = .access .reset :: rest := by
  rcases step_control h with hsame | ⟨-, hscript⟩ | ⟨c, w, hfault, -, -⟩
  · exact .inl ((faultBit_congr hsame).trans hs)
  · exact .inr hscript
  · exact .inl ((faultBit_congr hfault).trans (faultBit_takeFault c w s))

theorem hostReadReg_status (s : State) : hostReadReg 2 0 s = (statusWord s).setWidth 64 := rfl

/-- The mask of bits 3:1 clears them in what the host reads, and changes no byte in which they are 0 (R28; log 14). -/
theorem status_mask (x : BitVec 8) :
    ((x &&& 0xF1#8).setWidth 64).extractLsb' 1 3 = 0#3 ∧ (x &&& 0x0E#8 = 0#8 → x &&& 0xF1#8 = x) := by
  revert x
  decide

theorem hostReadReg_status_fields (s : State) :
    (hostReadReg 2 0 s).extractLsb' 1 3 = 0#3 ∧ (hostReadReg 2 0 s).extractLsb' 8 56 = 0#56 ∧
      (StatusLegal s → hostReadReg 2 0 s = s.status.setWidth 64) := by
  obtain ⟨hclear, hkeep⟩ := status_mask s.status
  rw [hostReadReg_status]
  refine ⟨hclear, ?_, fun hs => congrArg (BitVec.setWidth 64) (hkeep hs.1)⟩
  ext i hi
  simp

/-- Settles O51: a step leaves STATUS, clears it or enters a fault, and each is legal; no command reads it. -/
theorem statusStaysLegal : Obligations.StatusStaysLegal := by
  refine ⟨rfl, statusLegal_of_status_zero rfl, fun s t hs h => step_statusLegal hs h, fun s t h hs => step_fault_sticky h hs,
    hostReadReg_status_fields, fun s data rest h => step_writeReg_ignored (.inl rfl) h, fun i s x => ?_⟩
  obtain ⟨t, u, ht, hu, hv, hb, htab, hout, hhost, hpc, -, hfcmd⟩ := exec_ignores_control i s x s.fcmd
  exact ⟨t, u, ht, hu, hv, hb, htab, hout, hfcmd rfl, hhost, hpc⟩

/-- Settles O56: the mask constants are part of the parameters, which no step changes. -/
theorem maskConstantsNeverChange : Obligations.MaskConstantsNeverChange :=
  fun _ _ h => congrArg Params.masks (step_params h)

end Sys2Proof.Machine
end

section
/-! The step of a decoded command, the host register port (spec/10_state.md R36) and reset (R37 to R40). -/

namespace Sys2Proof.Machine

/-- Settles O9: the step takes the word off the script and runs what it decodes to. -/
theorem stepRunsTheDecodedCommand : Obligations.StepRunsTheDecodedCommand :=
  fun _ _ _ _ h hf hd => step_decoded h hf hd

/-! ### The host register port -/

theorem onlyV_setV (s : State) (rd : Reg) (p : Pair) : OnlyV rd s (setV s rd p) := onlyV_complete_setV s rd p

theorem onlyB_setB (s : State) (rd : Reg) (p : Pair) : OnlyB rd s (setB s rd p) := onlyB_complete_setB s rd p

/-- A control register as the host reads it, by index (R36). -/
theorem hostReadControl_eq (idx : Reg) (s : State) :
    hostReadControl idx s =
      if idx = 0 then 0#56 ++ statusWord s else if idx = 1 then 0#32 ++ s.fcmd else 0#64 := by
  split_ifs with h0 h1
  · subst h0
    exact BitVec.setWidth_eq_append (by decide)
  · subst h1
    exact BitVec.setWidth_eq_append (by decide)
  · unfold hostReadControl
    split
    case h_1 h => exact absurd (BitVec.eq_of_toNat_eq h) h0
    case h_2 h => exact absurd (BitVec.eq_of_toNat_eq h) h1
    case h_3 => rfl

/-- What a read through the register port gives, selector by selector (R36). -/
theorem hostReadReg_eq (sel : BitVec 2) (idx : Reg) (s : State) :
    hostReadReg sel idx s =
      if sel = 0 then (getV s idx).hi ++ (getV s idx).lo
      else if sel = 1 then (getB s idx).hi ++ (getB s idx).lo
      else if sel = 2 ∧ idx = 0 then 0#56 ++ statusWord s
      else if sel = 2 ∧ idx = 1 then 0#32 ++ s.fcmd
      else 0#64 := by
  have hsel : sel = 0 ∨ sel = 1 ∨ sel = 2 ∨ sel = 3 := by
    revert sel
    decide
  rcases hsel with rfl | rfl | rfl | rfl
  · rfl
  · rfl
  · exact (hostReadControl_eq idx s).trans (by simp)
  · rfl

/-- Settles O52: a write to a file is `setV` or `setB`, a write elsewhere is nothing, and a read adds its reply. -/
theorem hostRegisterPort : Obligations.HostRegisterPort := by
  intro s rest idx data
  refine ⟨fun h => ?_, fun h => ?_, fun h => ?_, fun sel h => ?_⟩
  · exact ⟨_, step_access h, getV_setV_same _ _ _, writtenV_setV_same _ _ _, rfl, onlyV_setV _ _ _⟩
  · exact ⟨_, step_access h, getB_setB_same _ _ _, writtenB_setB_same _ _ _, rfl, onlyB_setB _ _ _⟩
  · rcases h with h | h
    · exact step_writeReg_ignored (.inl rfl) h
    · exact step_writeReg_ignored (.inr rfl) h
  · exact ⟨_, step_access h, hostReadReg_eq sel idx s⟩

/-! ### Reset -/

theorem writtenV_of_noneWritten {s : State} (h : s.vWritten = noneWritten) (q : Reg) : writtenV s q = false := by
  simp only [writtenV, h]
  exact noneWritten_getElem _ q.isLt

theorem writtenB_of_noneWritten {s : State} (h : s.bWritten = noneWritten) (q : Reg) : writtenB s q = false := by
  simp only [writtenB, h]
  exact noneWritten_getElem _ q.isLt

/-- Settles O54: the step is `hostReset` on the state with the move taken off the script. -/
theorem resetClearsControlAndKeepsMemory : Obligations.ResetClearsControlAndKeepsMemory := by
  intro s rest h
  exact ⟨_, step_access h, rfl, rfl, faultBit_hostReset _, faultBit_hostReset _,
    fun q => ⟨writtenV_of_noneWritten rfl q, writtenB_of_noneWritten rfl q⟩, fun _ => rfl, fun _ => rfl, rfl, rfl⟩

/-- A word of 32 bits that the table's decoder reads decodes with the parameters State.reset names (log 1). -/
theorem decode_of_decodeTableWord {w : Nat} {i : Instr} (h : decodeTableWord 32 w = some i) :
    decode State.reset.params.nmask (BitVec.ofNat 32 w) = .ok i := by
  unfold decodeTableWord at h
  split_ifs at h
  change decode Config.resetParams.nmask (BitVec.ofNat 32 w) = .ok i
  cases hd : decode Config.resetParams.nmask (BitVec.ofNat 32 w) with
  | ok j =>
    rw [hd] at h
    injection h with h
    rw [h]
  | error e =>
    rw [hd] at h
    cases h

/-- Settles O55: no fault at reset, so the word at the head of the script is accepted, and its step is `exec`. -/
theorem afterResetTheUnitAcceptsCommands : Obligations.AfterResetTheUnitAcceptsCommands := by
  have hf : faultOut State.reset = false := by decide
  refine ⟨rfl, rfl, hf, fun q => ⟨writtenV_of_noneWritten rfl q, writtenB_of_noneWritten rfl q⟩, fun w i h => ?_⟩
  exact step_decoded (s := State.reset.withFetchWord 32 w) rfl hf (decode_of_decodeTableWord h)

end Sys2Proof.Machine
end

section
/-! The byte layout of a slot (spec/20_memory.md R51, R52): the byte lanes of a pair as bytes of its two words, and TSTORE and
TLOAD of a slot in range byte by byte. -/

namespace Sys2Proof

/-! ### The byte lanes of a pair as bytes of its words -/

theorem Pair.blane_lo (p : Pair) {j : Nat} (h : j < 4) : p.blane j = p.lo.extractLsb' (8 * j) 8 :=
  BitVec.extractLsb'_append_eq_of_add_le (by omega)

theorem Pair.blane_hi (p : Pair) {j : Nat} (h : 4 ≤ j) : p.blane j = p.hi.extractLsb' (8 * j - 32) 8 :=
  BitVec.extractLsb'_append_eq_of_le (by omega)

/-- The table of R51: what holds of every byte lane of a pair holds of the four bytes of `lo` and the four bytes of `hi`, in
that order. -/
theorem Pair.forall_blanes_table {p : Pair} {P : Nat → Byte → Prop} (h : ∀ j, j < 8 → P j (p.blane j)) :
    P 0 (p.lo.extractLsb' 0 8) ∧ P 1 (p.lo.extractLsb' 8 8) ∧
    P 2 (p.lo.extractLsb' 16 8) ∧ P 3 (p.lo.extractLsb' 24 8) ∧
    P 4 (p.hi.extractLsb' 0 8) ∧ P 5 (p.hi.extractLsb' 8 8) ∧
    P 6 (p.hi.extractLsb' 16 8) ∧ P 7 (p.hi.extractLsb' 24 8) ∧
    ∀ j, j < 8 → P j (p.bits64.extractLsb' (8 * j) 8) := by
  have hlo : ∀ j, j < 4 → P j (p.lo.extractLsb' (8 * j) 8) := fun j hj => p.blane_lo hj ▸ h j (by omega)
  have hhi : ∀ j, 4 ≤ j → j < 8 → P j (p.hi.extractLsb' (8 * j - 32) 8) := fun j h4 h8 => p.blane_hi h4 ▸ h j h8
  exact ⟨hlo 0 (by decide), hlo 1 (by decide), hlo 2 (by decide), hlo 3 (by decide),
    hhi 4 (by decide) (by decide), hhi 5 (by decide) (by decide), hhi 6 (by decide) (by decide),
    hhi 7 (by decide) (by decide), h⟩

end Sys2Proof

namespace Sys2Proof.Machine

/-! ### TSTORE and TLOAD of a slot in range -/

theorem exec_tstore_inRange {s : State} {slot : BitVec 12} (r : Reg) (h : slot.toNat < s.params.tabSlots) :
    exec (.tstore r slot) s = .next (complete (writeSlot s slot (getV s r))) :=
  if_pos ((slotInRange_iff s slot).2 h)

theorem exec_tload_inRange {s : State} {slot : BitVec 12} (r : Reg) (h : slot.toNat < s.params.tabSlots) :
    exec (.tload r slot) s = .next (complete (setV s r (readSlot s slot))) :=
  if_pos ((slotInRange_iff s slot).2 h)

/-- Byte `j` of a slot written is byte lane `j` of the pair. -/
theorem readTab_writeSlot_byte (s : State) (slot : BitVec 12) (p : Pair) {j : Nat} (hj : j < 8) :
    readTab (writeSlot s slot p) (8 * slot.toNat + j) = p.blane j := by
  change readTab (writeSlot s slot p) (slotAddr slot + j) = _
  rw [readTab_writeSlot, if_pos (by omega), Nat.add_sub_cancel_left]

/-- Byte lane `j` of the pair read from a slot is byte `j` of the slot. -/
theorem blane_readSlot (s : State) (slot : BitVec 12) {j : Nat} (hj : j < 8) :
    (readSlot s slot).blane j = readTab s (8 * slot.toNat + j) :=
  Pair.blane_ofLanes _ hj

/-- Settles O28: TSTORE writes the byte lanes and TLOAD reads them, and the byte lanes are the table of R51. -/
theorem slotLayout : Obligations.SlotLayout := by
  refine ⟨fun s r slot h => ⟨_, exec_tstore_inRange r h, ?_⟩, fun s r slot h => ⟨_, exec_tload_inRange r h, ?_⟩⟩
  · exact Pair.forall_blanes_table (P := fun j x => readTab (writeSlot s slot (getV s r)) (8 * slot.toNat + j) = x)
      fun _ hj => readTab_writeSlot_byte s slot _ hj
  · rw [getV_complete, getV_setV_same]
    exact Pair.forall_blanes_table (P := fun j x => x = readTab s (8 * slot.toNat + j))
      fun _ hj => blane_readSlot s slot hj

/-- Settles O29: bit `l % 8` of byte lane `l / 8` is lane `l`. -/
theorem lanesOfSlotBytes : Obligations.LanesOfSlotBytes := by
  intro s r slot l hslot hl
  refine ⟨_, exec_tstore_inRange r hslot, ?_⟩
  have hbit : l % 8 < 8 := Nat.mod_lt l (by decide)
  rw [readTab_complete, readTab_writeSlot_byte s slot _ (by omega), Pair.getLsbD_blane, Nat.div_add_mod,
    decide_eq_true hbit, Bool.true_and]

end Sys2Proof.Machine
end

section
/-! The host's byte accesses of TAB and OUT (spec/20_memory.md R59, spec/70_reset_and_hazards.md R226). -/

namespace Sys2Proof.Machine

/-- A byte of either space after a write to a byte of either space. -/
theorem readByte_writeByte (s : State) (space sp : Space) (addr a : Nat) (x : Byte) :
    readByte (writeByte s space addr x) sp a = if (sp, a) = (space, addr) then x else readByte s sp a := by
  cases space <;> cases sp
  case tab.tab => exact (readTab_writeTab s addr a x).trans (if_congr (by simp) rfl rfl)
  case out.out => exact (readOut_writeOut s addr a x).trans (if_congr (by simp) rfl rfl)
  case tab.out => exact (if_neg (by simp)).symm
  case out.tab => exact (if_neg (by simp)).symm

/-- A byte write leaves the registers, the control registers, the host's side and the host's index. -/
theorem writeByte_frame (s : State) (space : Space) (addr : Nat) (x : Byte) :
    SameV s (writeByte s space addr x) ∧ SameB s (writeByte s space addr x) ∧
      SameControl s (writeByte s space addr x) ∧ SameHost s (writeByte s space addr x) ∧
      (writeByte s space addr x).pc = s.pc := by
  cases space <;>
    exact ⟨fun _ => ⟨rfl, rfl⟩, fun _ => ⟨rfl, rfl⟩, ⟨rfl, rfl⟩, ⟨rfl, rfl, rfl, rfl⟩, rfl⟩

theorem readByte_with_script (s : State) (rest : List HostMove) (space : Space) (addr : Nat) :
    readByte { s with script := rest } space addr = readByte s space addr := rfl

section
variable {s : State} {rest : List HostMove} {space : Space} {addr : Nat} {x : Byte}

theorem step_writeByte (h : s.script = .access (.writeByte space addr x) :: rest) (ha : addr < spaceSize s space) :
    step s = .next (writeByte { s with script := rest } space addr x) :=
  (step_access h).trans (if_pos ha)

theorem step_readByte (h : s.script = .access (.readByte space addr) :: rest) (ha : addr < spaceSize s space) :
    step s = .next (reply (.byte (readByte s space addr)) { s with script := rest }) :=
  (step_access h).trans (if_pos ha)

/-- An access to a byte the space does not have stops the model (log 12). -/
theorem step_noSuchByte
    (h : s.script = .access (.writeByte space addr x) :: rest ∨ s.script = .access (.readByte space addr) :: rest)
    (ha : spaceSize s space ≤ addr) : step s = .fault (.noSuchByte space addr) := by
  rcases h with h | h
  · exact (step_access h).trans (if_neg (Nat.not_lt.2 ha))
  · exact (step_access h).trans (if_neg (Nat.not_lt.2 ha))

end

/-- Settles O53: in range the step is `writeByte` or a reply on the state with the move taken off the script. -/
theorem hostMemoryPort : Obligations.HostMemoryPort := by
  intro s rest space addr x
  refine ⟨fun h ha => ⟨_, step_writeByte h ha, ?_, fun sp a hne => ?_, ?_⟩, fun h ha => step_readByte h ha,
    fun h ha => step_noSuchByte h ha, rfl, rfl⟩
  · rw [readByte_writeByte, if_pos rfl]
  · rw [readByte_writeByte, if_neg hne, readByte_with_script]
  · exact writeByte_frame { s with script := rest } space addr x

end Sys2Proof.Machine
end

section
/-! Decoding and encoding are inverse to each other (spec/30_encoding.md R82, R93, R94), and the rows of the opcode table (R85). -/

namespace Sys2Proof

/-- The opcode of a command (R85). -/
def Instr.opcode : Instr → Opcode
  | .vzero _ => .vzero
  | .vones _ => .vones
  | .vand _ _ _ => .vand
  | .vor _ _ _ => .vor
  | .vxor _ _ _ => .vxor
  | .vnot _ _ => .vnot
  | .tload _ _ => .tload
  | .tstore _ _ => .tstore
  | .taccx _ _ _ => .taccx
  | .band _ _ _ => .band
  | .bor _ _ _ => .bor
  | .bxor _ _ _ => .bxor
  | .bmask _ _ => .bmask
  | .bshl _ _ _ => .bshl
  | .bshr _ _ _ => .bshr
  | .sync => .sync

@[simp] theorem Instr.opcode_build (op : Opcode) (w : Word) : (op.build w).opcode = op := by
  cases op <;> rfl

/-! ### What the decoder finds in the word of a command -/

theorem opField_encode (i : Instr) : opField (encode i) = i.opcode.code := by
  cases i with
  | vzero | vones => exact opField_D _ _
  | vand | vor | vxor | band | bor | bxor => exact opField_DAB _ _ _ _
  | vnot => exact opField_DA _ _ _
  | tload | tstore => exact opField_RS _ _ _
  | taccx => exact opField_NSO _ _ _ _
  | bmask => exact opField_DK _ _ _
  | bshl | bshr => exact opField_DAN _ _ _ _
  | sync => exact opField_Z _

theorem zeroField_encode (i : Instr) :
    (encode i).extractLsb' 0 i.opcode.format.zeroBits = 0#i.opcode.format.zeroBits := by
  cases i with
  | vzero | vones => exact zero_D _ _
  | vand | vor | vxor | band | bor | bxor => exact zero_DAB _ _ _ _
  | vnot => exact zero_DA _ _ _
  | tload | tstore => exact zero_RS _ _ _
  | taccx => exact BitVec.of_length_zero
  | bmask => exact zero_DK _ _ _
  | bshl | bshr => exact zero_DAN _ _ _ _
  | sync => exact zero_Z _

/-- The operands of a command are the fields of its word. -/
theorem build_encode (i : Instr) : i.opcode.build (encode i) = i := by
  cases i <;> simp [Instr.opcode, Opcode.build, encode]

/-! ### When a word decodes -/

/-- The one check of a well-formed command is the decoder's check of the mask constants (R91). -/
theorem wellFormed_build_iff (nmask : Nat) (op : Opcode) (w : Word) :
    wellFormed nmask (op.build w) = true ↔ ¬(op = .bmask ∧ nmask ≤ (kField w).toNat) := by
  cases op <;> simp [Opcode.build, wellFormed]

/-- A word that passes the checks of R94 decodes to the command of its opcode and its fields. -/
theorem decode_of_fields {nmask : Nat} {w : Word} {op : Opcode} (hop : opField w = op.code)
    (hz : w.extractLsb' 0 op.format.zeroBits = 0#op.format.zeroBits) (hwf : wellFormed nmask (op.build w) = true) :
    decode nmask w = .ok (op.build w) := by
  have hmask := (wellFormed_build_iff nmask op w).1 hwf
  simp [decode, zeroFieldIsZero, hop, hz, hmask]

theorem decode_encode {nmask : Nat} {i : Instr} (h : wellFormed nmask i = true) :
    decode nmask (encode i) = .ok i := by
  have hbuild := build_encode i
  have hd := decode_of_fields (opField_encode i) (zeroField_encode i) (hbuild.symm ▸ h)
  rwa [hbuild] at hd

theorem wellFormed_of_decode {nmask : Nat} {w : Word} {i : Instr} (h : decode nmask w = .ok i) :
    wellFormed nmask i = true := by
  obtain ⟨op, -, -, hmask, rfl⟩ := decode_ok h
  exact (wellFormed_build_iff nmask op w).2 hmask

/-- Settles O1: the word has the opcode, the zero field and the operands of the command. -/
theorem decodeOfEncodeIsTheCommand : Obligations.DecodeOfEncodeIsTheCommand :=
  fun _ _ h => decode_encode h

/-- Settles O2: a word is the join of its fields, and the decoder makes the check that a command is well formed. -/
theorem encodeOfDecodedIsTheWord : Obligations.EncodeOfDecodedIsTheWord :=
  fun _ _ _ h => ⟨encode_of_decode h, wellFormed_of_decode h⟩

/-! ### The rows of the opcode table -/

section
open Laws.TableRow

/-- The word of a command has the fixed bits of the command's row: the family TableRow, over all commands. -/
theorem encode_hasRow (i : Instr) : HasRow (encode i) (row i).1 (row i).2 := by
  cases i with
  | vzero rd => exact vzero rd
  | vones rd => exact vones rd
  | vand rd ra rb => exact vand rd ra rb
  | vor rd ra rb => exact vor rd ra rb
  | vxor rd ra rb => exact vxor rd ra rb
  | vnot rd ra => exact vnot rd ra
  | tload r slot => exact tload r slot
  | tstore r slot => exact tstore r slot
  | taccx cnt slot obase => exact taccx cnt slot obase
  | band rd ra rb => exact band rd ra rb
  | bor rd ra rb => exact bor rd ra rb
  | bxor rd ra rb => exact bxor rd ra rb
  | bmask rd k => exact bmask rd k
  | bshl rd ra n => exact bshl rd ra n
  | bshr rd ra n => exact bshr rd ra n
  | sync => exact sync

/-- Bits where a mask is 1 pass it unchanged. -/
theorem extract_and_mask {start len : Nat} {mask : Word} (w : Word)
    (h : mask.extractLsb' start len = BitVec.allOnes len) :
    (w &&& mask).extractLsb' start len = w.extractLsb' start len := by
  rw [BitVec.extractLsb'_and, h, BitVec.and_allOnes]

/-- The fixed bits of a row are the opcode and the `zero` field (R85). -/
theorem fields_of_hasRow {i : Instr} {w : Word} (h : HasRow w (row i).1 (row i).2) :
    opField w = i.opcode.code ∧ w.extractLsb' 0 i.opcode.format.zeroBits = 0#i.opcode.format.zeroBits := by
  have hop : (row i).1.extractLsb' 26 6 = BitVec.allOnes 6 := by
    cases i <;> dsimp only [row] <;> decide
  have hzero : (row i).1.extractLsb' 0 i.opcode.format.zeroBits = BitVec.allOnes _ := by
    cases i <;> dsimp only [row, Instr.opcode] <;> decide
  have hcode : (row i).2.extractLsb' 26 6 = i.opcode.code := by
    cases i <;> dsimp only [row, Instr.opcode] <;> decide
  have hlow : (row i).2.extractLsb' 0 i.opcode.format.zeroBits = 0#_ := by
    cases i <;> dsimp only [row, Instr.opcode] <;> decide
  constructor
  · rw [opField, ← extract_and_mask w hop, h, hcode]
  · rw [← extract_and_mask w hzero, h, hlow]

/-- A word is a command exactly when it has the fixed bits of the command's row, the command is well formed, and its operands
are the fields of the word. -/
theorem decode_iff_row (nmask : Nat) (w : Word) (i : Instr) :
    decode nmask w = .ok i ↔ w &&& (row i).1 = (row i).2 ∧ wellFormed nmask i = true ∧ i = i.opcode.build w := by
  constructor
  · intro h
    obtain rfl : encode i = w := encode_of_decode h
    exact ⟨encode_hasRow i, wellFormed_of_decode h, (build_encode i).symm⟩
  · rintro ⟨hrow, hwf, hi⟩
    obtain ⟨hop, hz⟩ := fields_of_hasRow hrow
    rw [hi] at hwf ⊢
    exact decode_of_fields (by simpa using hop) (by simpa using hz) (by simpa using hwf)

end

/-- Settles O3: each row is `decode_iff_row` at the row's command, with the row and the fields written out. -/
theorem opcodeTableMatchesAndFields : Obligations.OpcodeTableMatchesAndFields := by
  intro nmask w
  refine ⟨fun rd => ?_, fun rd => ?_, fun rd ra rb => ?_, fun rd ra rb => ?_, fun rd ra rb => ?_, fun rd ra => ?_,
    fun r slot => ?_, fun r slot => ?_, fun cnt slot obase => ?_, fun rd ra rb => ?_, fun rd ra rb => ?_,
    fun rd ra rb => ?_, fun rd k => ?_, fun rd ra n => ?_, fun rd ra n => ?_, ?_⟩ <;>
  simp [decode_iff_row, Laws.TableRow.row, wellFormed, Instr.opcode, Opcode.build, rdField, raField, rbField, kField,
    nField, slotField, cntField, obaseField]

end Sys2Proof
end

section
/-! Words that are no command take ILLEGAL_COMMAND (spec/30_encoding.md R86, R90, R91), and fields out of range decode and
fault (R92). -/

namespace Sys2Proof.Machine

section
variable {s : State} {cmd : Word} {rest : List HostMove}

/-! ### Words that are no command -/

/-- A word presented that decodes to no command takes the fault entry of ILLEGAL_COMMAND (R94, R191). -/
theorem step_undecodable (hs : s.script = .issue cmd :: rest) (hf : halted s = false)
    (hd : ∀ i, decode s.params.nmask cmd ≠ .ok i) :
    ∃ t, step s = .next t ∧ FaultTaken .illegalCommand cmd { s with script := rest } t := by
  cases h : decode s.params.nmask cmd with
  | ok i => exact absurd h (hd i)
  | error e => exact ⟨_, step_illegal hs hf h, faultTaken_takeFault _ _ _⟩

/-- The 48 reserved opcode values name no command (R86). -/
theorem ofCode_reserved (c : BitVec 6) :
    (c.toNat = 0x00 ∨ (0x07 ≤ c.toNat ∧ c.toNat ≤ 0x10) ∨ (0x14 ≤ c.toNat ∧ c.toNat ≤ 0x20) ∨
      (0x27 ≤ c.toNat ∧ c.toNat ≤ 0x30) ∨ (0x32 ≤ c.toNat ∧ c.toNat ≤ 0x3F)) → Opcode.ofCode c = none := by
  revert c
  decide

/-- Settles O5: the first check of R94 finds no command for a reserved opcode. -/
theorem reservedOpcodesAreIllegal : Obligations.ReservedOpcodesAreIllegal := by
  rintro s cmd rest _ hs hf rfl hreserved
  refine step_undecodable hs hf fun i h => ?_
  obtain ⟨op, hop, -⟩ := decode_ok h
  have hnone : Opcode.ofCode (opField cmd) = none := ofCode_reserved _ hreserved
  rw [hnone] at hop
  cases hop

/-- The width of the `zero` field by opcode value, for the opcodes that have one (R82, R85). -/
theorem zeroBits_of_code (op : Opcode) {c : Nat} (h : c = op.code.toNat) :
    (c = 0x31 → op.format.zeroBits = 26) ∧ (c = 0x01 ∨ c = 0x02 → op.format.zeroBits = 22) ∧
    (c = 0x06 ∨ c = 0x24 → op.format.zeroBits = 18) ∧
    (c = 0x03 ∨ c = 0x04 ∨ c = 0x05 ∨ c = 0x21 ∨ c = 0x22 ∨ c = 0x23 → op.format.zeroBits = 14) ∧
    (c = 0x25 ∨ c = 0x26 → op.format.zeroBits = 13) ∧ (c = 0x11 ∨ c = 0x12 → op.format.zeroBits = 10) := by
  subst h
  cases op <;> decide

/-- Settles O6: a word that decodes has passed the check that the `zero` field of its opcode's format is 0. -/
theorem reservedBitsAreIllegal : Obligations.ReservedBitsAreIllegal := by
  intro s cmd rest c hs hf hc hbits
  refine step_undecodable hs hf fun i h => ?_
  obtain ⟨op, hop, hz, -⟩ := decode_ok h
  have hcode : c = op.code.toNat := hc.trans (congrArg BitVec.toNat (Opcode.code_of_ofCode hop).symm)
  obtain ⟨h26, h22, h18, h14, h13, h10⟩ := zeroBits_of_code op hcode
  rcases hbits with ⟨ho, hne⟩ | ⟨ho, hne⟩ | ⟨ho, hne⟩ | ⟨ho, hne⟩ | ⟨ho, hne⟩ | ⟨ho, hne⟩
  · exact hne (h26 ho ▸ hz)
  · exact hne (h22 ho ▸ hz)
  · exact hne (h18 ho ▸ hz)
  · exact hne (h14 ho ▸ hz)
  · exact hne (h13 ho ▸ hz)
  · exact hne (h10 ho ▸ hz)

/-- Settles O7: a BMASK that decodes has passed the check `k < NMASK`, and every 4-bit `k` is below 16. -/
theorem missingMaskIsIllegal : Obligations.MissingMaskIsIllegal := by
  refine ⟨fun s cmd rest hs hf hop hk => step_undecodable hs hf fun i h => ?_,
    fun rd k => decode_encode (decide_eq_true k.isLt)⟩
  obtain ⟨op, hop', -, hmask, -⟩ := decode_ok h
  obtain rfl : Opcode.bmask = op := by
    rw [opField, hop] at hop'
    exact Option.some.inj hop'
  have hle : s.params.nmask ≤ (kField cmd).toNat := hk.elim id fun h0 => h0 ▸ Nat.zero_le _
  exact hmask ⟨rfl, hle⟩

/-! ### Fields out of range -/

/-- The word of a well-formed command that faults when executed takes the fault entry with that word. -/
theorem step_encode_fault {i : Instr} {c : Cause} (hs : s.script = .issue (encode i) :: rest) (hf : halted s = false)
    (hwf : wellFormed s.params.nmask i = true)
    (he : exec i { s with script := rest } = .next (takeFault c (encode i) { s with script := rest })) :
    ∃ t, step s = .next t ∧ FaultTaken c (encode i) { s with script := rest } t :=
  ⟨_, (step_decoded hs hf (decode_encode hwf)).trans he, faultTaken_takeFault _ _ _⟩

end

section
variable {s : State} {cnt : BitVec 4} {slot : BitVec 12} {obase : BitVec 10}

theorem exec_tload_outOfRange (r : Reg) (h : s.params.tabSlots ≤ slot.toNat) :
    exec (.tload r slot) s = .next (takeFault .slotRange (encode (.tload r slot)) s) :=
  if_neg fun hin => Nat.not_lt.2 h ((slotInRange_iff s slot).1 hin)

theorem exec_tstore_outOfRange (r : Reg) (h : s.params.tabSlots ≤ slot.toNat) :
    exec (.tstore r slot) s = .next (takeFault .slotRange (encode (.tstore r slot)) s) :=
  if_neg fun hin => Nat.not_lt.2 h ((slotInRange_iff s slot).1 hin)

theorem exec_taccx_fault {c : Cause} (h : taccxCheck s cnt slot obase = some c) :
    exec (.taccx cnt slot obase) s = .next (takeFault c (encode (.taccx cnt slot obase)) s) := by
  simp only [exec, execTaccx, h]

theorem taccxCheck_countRange (hcnt : 9 ≤ cnt.toNat) : taccxCheck s cnt slot obase = some .countRange :=
  if_pos hcnt

theorem taccxCheck_slotRange (hcnt : cnt.toNat ≤ 8) (hslot : s.params.tabSlots ≤ slot.toNat) :
    taccxCheck s cnt slot obase = some .slotRange := by
  rw [taccxCheck, if_neg (Nat.not_lt.2 hcnt), if_pos hslot]

theorem taccxCheck_outRange (hcnt : cnt.toNat ≤ 8) (hslot : slot.toNat < s.params.tabSlots)
    (hout : s.params.outBytes < obase.toNat + cnt.toNat) : taccxCheck s cnt slot obase = some .outRange := by
  rw [taccxCheck, if_neg (Nat.not_lt.2 hcnt), if_neg (Nat.not_le.2 hslot), if_pos hout]

end

/-- Settles O8: the decoder does not check `cnt`, `slot` or `obase`, and the command faults before any access. -/
theorem outOfRangeFieldsDecodeThenFault : Obligations.OutOfRangeFieldsDecodeThenFault := by
  intro s rest hf
  refine ⟨fun cnt slot obase hs => ⟨decode_encode rfl, fun hcnt => ?_, fun hcnt hslot => ?_, fun hcnt hslot hout => ?_⟩,
    fun r slot hs hslot => ⟨decode_encode rfl, ?_⟩, fun r slot hs hslot => ⟨decode_encode rfl, ?_⟩⟩
  · exact step_encode_fault hs hf rfl (exec_taccx_fault (taccxCheck_countRange hcnt))
  · exact step_encode_fault hs hf rfl (exec_taccx_fault (taccxCheck_slotRange hcnt hslot))
  · exact step_encode_fault hs hf rfl (exec_taccx_fault (taccxCheck_outRange hcnt hslot hout))
  · exact step_encode_fault hs hf rfl (exec_tload_outOfRange r hslot)
  · exact step_encode_fault hs hf rfl (exec_tstore_outOfRange r hslot)

end Sys2Proof.Machine
end

section
/-! The commands of the Lane Vector Algebra (spec/41_lane_vector_algebra.md R111 to R117): what each writes, said once, and with
it the statement of each command. -/

namespace Sys2Proof.Machine

/-! ### What each command writes -/

section
variable (rd ra rb : Reg) (s : State)

theorem exec_vzero : exec (.vzero rd) s = .next (complete (setV s rd .zero)) := rfl

theorem exec_vones : exec (.vones rd) s = .next (complete (setV s rd .ones)) := rfl

theorem exec_vand : exec (.vand rd ra rb) s = .next (complete (setV s rd ((getV s ra).and (getV s rb)))) := rfl

theorem exec_vor : exec (.vor rd ra rb) s = .next (complete (setV s rd ((getV s ra).or (getV s rb)))) := rfl

theorem exec_vxor : exec (.vxor rd ra rb) s = .next (complete (setV s rd ((getV s ra).xor (getV s rb)))) := rfl

theorem exec_vnot : exec (.vnot rd ra) s = .next (complete (setV s rd (getV s ra).not)) := rfl

end

/-! ### A command that writes a V register and completes -/

section
variable {i : Instr} {s s' : State} {rd : Reg} {p p' : Pair}

theorem getV_complete_setV (s : State) (rd : Reg) (p : Pair) : getV (complete (setV s rd p)) rd = p := by
  rw [getV_complete, getV_setV_same]

theorem lane_complete_setV (s : State) (rd : Reg) (p : Pair) (l : Nat) :
    (getV (complete (setV s rd p)) rd).lane l = p.lane l := by
  rw [getV_complete_setV]

/-- The contents of the register, word by word and lane by lane, its mark, the host's index and the frame. -/
theorem exec_writesV (hx : exec i s = .next (complete (setV s rd p))) {f : Nat → Bool}
    (hf : ∀ l, l < 64 → p.lane l = f l) :
    ∃ t, exec i s = .next t ∧ getV t rd = p ∧ (∀ l, l < 64 → (getV t rd).lane l = f l) ∧
      writtenV t rd = true ∧ t.pc = s.pc + 1 ∧ OnlyV rd s t := by
  refine ⟨_, hx, getV_complete_setV s rd p, fun l hl => ?_, writtenV_setV_same s rd p, rfl, onlyV_complete_setV s rd p⟩
  rw [lane_complete_setV, hf l hl]

theorem exec_getV_eq {q : Pair} (hx : exec i s = .next (complete (setV s rd p))) (hp : p = q) :
    ∃ t, exec i s = .next t ∧ getV t rd = q :=
  ⟨_, hx, (getV_complete_setV s rd p).trans hp⟩

/-- One lane of what the command writes in two states. -/
theorem exec_lane_eq {l : Nat} {z : Bool} (hx : exec i s = .next (complete (setV s rd p)))
    (hx' : exec i s' = .next (complete (setV s' rd p'))) (hp : p.lane l = z) (hp' : p'.lane l = z) :
    ∃ t t', exec i s = .next t ∧ exec i s' = .next t' ∧
      (getV t rd).lane l = z ∧ (getV t' rd).lane l = (getV t rd).lane l := by
  refine ⟨_, _, hx, hx', ?_, ?_⟩
  · rw [lane_complete_setV, hp]
  · rw [lane_complete_setV, lane_complete_setV, hp, hp']

end

/-! ### The six commands -/

/-- Settles O11: VZERO writes `Pair.zero`, every lane of which is false. -/
theorem vzeroWritesTheZeroVector : Obligations.VzeroWritesTheZeroVector :=
  ⟨fun s rd => exec_writesV (exec_vzero rd s) fun l _ => Pair.lane_zero l, fun _ => encode_hasRow _, by decide⟩

/-- Settles O12: VONES writes `Pair.ones`, every lane of which is true. -/
theorem vonesWritesTheOnesVector : Obligations.VonesWritesTheOnesVector :=
  ⟨fun s rd => exec_writesV (exec_vones rd s) fun _ hl => Pair.lane_ones hl, fun _ => encode_hasRow _, by decide⟩

/-- Settles O13: VAND writes `Pair.and`, which is AND in every lane. -/
theorem vandIsAndOnEveryLane : Obligations.VandIsAndOnEveryLane := by
  refine ⟨fun s rd ra rb => exec_writesV (exec_vand rd ra rb s) fun l _ => Pair.lane_and _ _ l,
    fun _ _ _ => encode_hasRow _, by decide, fun s h0 h1 => exec_getV_eq (exec_vand 2 0 1 s) ?_⟩
  rw [h0, h1]
  decide

/-- Settles O14: VOR writes `Pair.or`, which is OR in every lane. -/
theorem vorIsOrOnEveryLane : Obligations.VorIsOrOnEveryLane := by
  refine ⟨fun s rd ra rb => exec_writesV (exec_vor rd ra rb s) fun l _ => Pair.lane_or _ _ l,
    fun _ _ _ => encode_hasRow _, by decide, fun s h0 h1 => exec_getV_eq (exec_vor 3 0 1 s) ?_⟩
  rw [h0, h1]
  decide

/-- Settles O15: VXOR writes `Pair.xor`, which is XOR in every lane. -/
theorem vxorIsXorOnEveryLane : Obligations.VxorIsXorOnEveryLane := by
  refine ⟨fun s rd ra rb => exec_writesV (exec_vxor rd ra rb s) fun l _ => Pair.lane_xor _ _ l,
    fun _ _ _ => encode_hasRow _, by decide, fun s h0 h1 => exec_getV_eq (exec_vxor 4 0 1 s) ?_⟩
  rw [h0, h1]
  decide

/-- Settles O16: VNOT writes `Pair.not`, which is the complement in every lane and 0xFFFFFFFF less each word. -/
theorem vnotIsComplementOnEveryLane : Obligations.VnotIsComplementOnEveryLane := by
  refine ⟨fun s rd ra => ?_, fun _ _ => encode_hasRow _, by decide, fun s h0 => exec_getV_eq (exec_vnot 5 0 s) ?_⟩
  · obtain ⟨t, ht, hp, hlanes, hframe⟩ := exec_writesV (exec_vnot rd ra s) fun _ hl => Pair.lane_not _ hl
    refine ⟨t, ht, hp, ?_, ?_, hlanes, hframe⟩
    · rw [hp]
      exact BitVec.toNat_not
    · rw [hp]
      exact BitVec.toNat_not
  · rw [h0]
    decide

/-- Settles O17: the lane of a result is the lane operator of the lanes of the sources, and the table is that operator. -/
theorem lanesFollowTheTruthTables : Obligations.LanesFollowTheTruthTables := by
  intro s s' rd ra rb l x y hl hx hx' hy hy'
  have hzero : ∀ s, (getV (complete (setV s rd .zero)) rd).lane l = false := fun s =>
    (lane_complete_setV s rd .zero l).trans (Pair.lane_zero l)
  have hones : ∀ s, (getV (complete (setV s rd .ones)) rd).lane l = true := fun s =>
    (lane_complete_setV s rd .ones l).trans (Pair.lane_ones hl)
  refine ⟨exec_lane_eq (exec_vand rd ra rb s) (exec_vand rd ra rb s') ?_ ?_,
    exec_lane_eq (exec_vor rd ra rb s) (exec_vor rd ra rb s') ?_ ?_,
    exec_lane_eq (exec_vxor rd ra rb s) (exec_vxor rd ra rb s') ?_ ?_,
    exec_lane_eq (exec_vnot rd ra s) (exec_vnot rd ra s') ?_ ?_,
    ⟨_, _, exec_vzero rd s, exec_vzero rd s', hzero s, hzero s'⟩,
    ⟨_, _, exec_vones rd s, exec_vones rd s', hones s, hones s'⟩⟩
  all_goals
    simp only [Pair.lane_and, Pair.lane_or, Pair.lane_xor, Pair.lane_not _ hl, hx, hx', hy, hy']
    cases x <;> cases y <;> rfl

end Sys2Proof.Machine
end

section
/-! Programs of the Lane Vector Algebra (spec/41_lane_vector_algebra.md R123): a command does one and the same thing in every
lane, and so does a program. -/

namespace Sys2Proof.Machine

/-! ### One lane of the V file -/

/-- Lane `l` of all V registers. -/
def lanesAt (s : State) (l : Nat) : Reg → Bool := fun r => (getV s r).lane l

/-- What a Lane Vector command does to one lane of the V file: the table of R110. -/
def laneStep (i : Instr) (x : Reg → Bool) : Reg → Bool :=
  match i with
  | .vzero rd => Function.update x rd false
  | .vones rd => Function.update x rd true
  | .vand rd ra rb => Function.update x rd (x ra && x rb)
  | .vor rd ra rb => Function.update x rd (x ra || x rb)
  | .vxor rd ra rb => Function.update x rd (x ra ^^ x rb)
  | .vnot rd ra => Function.update x rd (!x ra)
  | .tload _ _ | .tstore _ _ | .taccx _ _ _ | .band _ _ _ | .bor _ _ _ | .bxor _ _ _ | .bmask _ _
  | .bshl _ _ _ | .bshr _ _ _ | .sync => x

theorem lanesAt_complete_setV (s : State) (rd : Reg) (p : Pair) (l : Nat) :
    lanesAt (complete (setV s rd p)) l = Function.update (lanesAt s l) rd (p.lane l) := by
  funext r
  rw [lanesAt, getV_complete]
  rcases eq_or_ne r rd with rfl | hne
  · rw [getV_setV_same, Function.update_self]
  · rw [getV_setV_other s rd p hne, Function.update_of_ne hne]
    rfl

/-- A Lane Vector command writes one V register, with what `laneStep` gives in every lane. -/
theorem exec_laneVector {i : Instr} (hi : isLaneVector i = true) (s : State) :
    ∃ rd p, exec i s = .next (complete (setV s rd p)) ∧
      ∀ l, l < 64 → lanesAt (complete (setV s rd p)) l = laneStep i (lanesAt s l) := by
  simp only [lanesAt_complete_setV]
  cases i with
  | vzero rd => exact ⟨rd, _, exec_vzero rd s, fun l _ => congrArg _ (Pair.lane_zero l)⟩
  | vones rd => exact ⟨rd, _, exec_vones rd s, fun _ hl => congrArg _ (Pair.lane_ones hl)⟩
  | vand rd ra rb => exact ⟨rd, _, exec_vand rd ra rb s, fun l _ => congrArg _ (Pair.lane_and _ _ l)⟩
  | vor rd ra rb => exact ⟨rd, _, exec_vor rd ra rb s, fun l _ => congrArg _ (Pair.lane_or _ _ l)⟩
  | vxor rd ra rb => exact ⟨rd, _, exec_vxor rd ra rb s, fun l _ => congrArg _ (Pair.lane_xor _ _ l)⟩
  | vnot rd ra => exact ⟨rd, _, exec_vnot rd ra s, fun _ hl => congrArg _ (Pair.lane_not _ hl)⟩
  | tload | tstore | taccx | band | bor | bxor | bmask | bshl | bshr | sync => cases hi

/-! ### Only the V file changes -/

/-- From `s` to `t` only the V file, its written marks and the host's index may change. -/
def OnlyVFile (s t : State) : Prop := SameB s t ∧ SameTab s t ∧ SameOut s t ∧ SameControl s t ∧ SameHost s t

theorem OnlyVFile.refl (s : State) : OnlyVFile s s :=
  ⟨fun _ => ⟨rfl, rfl⟩, fun _ => rfl, fun _ => rfl, ⟨rfl, rfl⟩, rfl, rfl, rfl, rfl⟩

theorem OnlyVFile.trans {s t u : State} (h : OnlyVFile s t) (h' : OnlyVFile t u) : OnlyVFile s u := by
  obtain ⟨hb, htab, hout, ⟨hstatus, hfcmd⟩, hparams, hscript, hreplies, hresets⟩ := h
  obtain ⟨hb', htab', hout', ⟨hstatus', hfcmd'⟩, hparams', hscript', hreplies', hresets'⟩ := h'
  exact ⟨fun q => ⟨(hb' q).1.trans (hb q).1, (hb' q).2.trans (hb q).2⟩, fun a => (htab' a).trans (htab a),
    fun a => (hout' a).trans (hout a), ⟨hstatus'.trans hstatus, hfcmd'.trans hfcmd⟩, hparams'.trans hparams,
    hscript'.trans hscript, hreplies'.trans hreplies, hresets'.trans hresets⟩

theorem OnlyV.onlyVFile {rd : Reg} {s t : State} (h : OnlyV rd s t) : OnlyVFile s t := by
  obtain ⟨-, hrest⟩ := h
  exact hrest

/-! ### Programs -/

theorem runInstrs_cons {i : Instr} {s t : State} (h : exec i s = .next t) (is : List Instr) :
    runInstrs (i :: is) s = runInstrs is t := by
  rw [runInstrs, h]

/-- What a program of the family does to one lane of the V file. -/
def laneRun (is : List Instr) (x : Reg → Bool) : Reg → Bool := is.foldl (fun x i => laneStep i x) x

/-- A program of the family runs to its end, does `laneRun` in every lane, and changes nothing but the V file and the index. -/
theorem runInstrs_laneVector {is : List Instr} (his : ∀ i ∈ is, isLaneVector i = true) (s : State) :
    ∃ t, runInstrs is s = .next t ∧ (∀ l, l < 64 → lanesAt t l = laneRun is (lanesAt s l)) ∧
      OnlyVFile s t ∧ t.pc = s.pc + is.length := by
  induction is generalizing s with
  | nil => exact ⟨s, rfl, fun _ _ => rfl, OnlyVFile.refl s, rfl⟩
  | cons i is ih =>
    obtain ⟨hi, his⟩ := List.forall_mem_cons.1 his
    obtain ⟨rd, p, hx, hstep⟩ := exec_laneVector hi s
    obtain ⟨t, ht, hrun, hframe, hpc⟩ := ih his (complete (setV s rd p))
    refine ⟨t, (runInstrs_cons hx is).trans ht, fun l hl => ?_,
      (onlyV_complete_setV s rd p).onlyVFile.trans hframe, ?_⟩
    · rw [hrun l hl, hstep l hl]
      rfl
    · rw [hpc, complete_pc, setV_pc, List.length_cons]
      omega

/-- Settles O22: the function is `laneRun` of the program, by induction on the program. -/
theorem programsComputeOneFunctionPerLane : Obligations.ProgramsComputeOneFunctionPerLane := by
  intro is his
  refine ⟨laneRun is, fun s => ?_⟩
  obtain ⟨t, ht, hlanes, ⟨hb, htab, hout, hcontrol, hhost⟩, hpc⟩ := runInstrs_laneVector his s
  exact ⟨t, ht, hlanes, hb, htab, hout, hcontrol, hhost, hpc⟩

end Sys2Proof.Machine
end

section
/-! The laws of the lane operations (spec/41_lane_vector_algebra.md R118 to R122): first as equations of pairs, then as command
sequences. -/

namespace Sys2Proof

/-! ### The laws as equations of pairs -/

theorem Pair.and_comm (p q : Pair) : p.and q = q.and p :=
  Pair.ext_words (BitVec.and_comm _ _) (BitVec.and_comm _ _)

theorem Pair.or_comm (p q : Pair) : p.or q = q.or p :=
  Pair.ext_words (BitVec.or_comm _ _) (BitVec.or_comm _ _)

theorem Pair.xor_comm (p q : Pair) : p.xor q = q.xor p :=
  Pair.ext_words (BitVec.xor_comm _ _) (BitVec.xor_comm _ _)

theorem Pair.and_assoc (p q r : Pair) : (p.and q).and r = p.and (q.and r) :=
  Pair.ext_words (BitVec.and_assoc _ _ _) (BitVec.and_assoc _ _ _)

theorem Pair.or_assoc (p q r : Pair) : (p.or q).or r = p.or (q.or r) :=
  Pair.ext_words (BitVec.or_assoc _ _ _) (BitVec.or_assoc _ _ _)

theorem Pair.xor_assoc (p q r : Pair) : (p.xor q).xor r = p.xor (q.xor r) :=
  Pair.ext_words (BitVec.xor_assoc _ _ _) (BitVec.xor_assoc _ _ _)

theorem Pair.xor_self (p : Pair) : p.xor p = .zero :=
  Pair.ext_words BitVec.xor_self BitVec.xor_self

theorem Pair.or_zero (p : Pair) : p.or .zero = p :=
  Pair.ext_words BitVec.or_zero BitVec.or_zero

theorem Pair.and_ones (p : Pair) : p.and .ones = p :=
  Pair.ext_words BitVec.and_allOnes BitVec.and_allOnes

theorem Pair.and_not_self (p : Pair) : p.and p.not = .zero :=
  Pair.ext_lanes fun l hl => by simp [Pair.lane_not p hl]

theorem Pair.not_and (p q : Pair) : (p.and q).not = p.not.or q.not :=
  Pair.ext_words BitVec.not_and BitVec.not_and

theorem Pair.not_or (p q : Pair) : (p.or q).not = p.not.and q.not :=
  Pair.ext_words BitVec.not_or BitVec.not_or

/-- Equivalence, lane by lane: both true or both false is not different (R122). -/
theorem Pair.xor_and_and_not (p q : Pair) : (p.and q).xor (p.not.and q.not) = (p.xor q).not := by
  refine Pair.ext_lanes fun l hl => ?_
  simp only [Pair.lane_xor, Pair.lane_and, Pair.lane_not _ hl]
  cases p.lane l <;> cases q.lane l <;> rfl

end Sys2Proof

namespace Sys2Proof.Machine

/-! ### The laws as command sequences -/

theorem getV_setV (s : State) (i : Reg) (p : Pair) (q : Reg) :
    getV (setV s i p) q = if q = i then p else getV s q := by
  split_ifs with h
  · rw [h, getV_setV_same]
  · exact getV_setV_other s i p h

/-- Settles O18: each sequence leaves in `v[u]` the pair on the left of its law. -/
theorem complementAndIdentityLaws : Obligations.ComplementAndIdentityLaws := by
  intro s a u hua
  refine ⟨⟨_, rfl, ?_⟩, ⟨_, rfl, ?_⟩, ⟨_, rfl, ?_⟩, ⟨_, rfl, ?_⟩⟩
  · simp [getV_setV, hua.symm, Pair.and_not_self]
  · simp [Pair.xor_self]
  · simp [getV_setV, hua.symm, Pair.or_zero]
  · simp [getV_setV, hua.symm, Pair.and_ones]

/-- Settles O19: one sequence leaves the left side of the law in `v[u]`, the other the right side. -/
theorem deMorganLaws : Obligations.DeMorganLaws := by
  intro s a b u w _ hub _ _ hwu
  refine ⟨⟨_, _, rfl, rfl, ?_⟩, ⟨_, _, rfl, rfl, ?_⟩⟩
  · simp [getV_setV, hub.symm, hwu.symm, Pair.not_and]
  · simp [getV_setV, hub.symm, hwu.symm, Pair.not_or]

/-- A command that writes a commutative and associative operation of two registers: the operands may be exchanged and the
brackets moved. -/
theorem exec_comm_assoc {op : Reg → Reg → Reg → Instr} {f : Pair → Pair → Pair}
    (hx : ∀ rd ra rb s, exec (op rd ra rb) s = .next (complete (setV s rd (f (getV s ra) (getV s rb)))))
    (hcomm : ∀ p q, f p q = f q p) (hassoc : ∀ p q r, f (f p q) r = f p (f q r)) (s : State) (a b c u : Reg) :
    (∃ t t', exec (op u a b) s = .next t ∧ exec (op u b a) s = .next t' ∧ getV t u = getV t' u) ∧
    (u ≠ a → u ≠ c → ∃ t t', runInstrs [op u a b, op u u c] s = .next t ∧
      runInstrs [op u b c, op u a u] s = .next t' ∧ getV t u = getV t' u) := by
  refine ⟨⟨_, _, hx _ _ _ _, hx _ _ _ _, ?_⟩, fun hua huc => ⟨_, _, (runInstrs_cons (hx _ _ _ _) _).trans
    (runInstrs_cons (hx _ _ _ _) _), (runInstrs_cons (hx _ _ _ _) _).trans (runInstrs_cons (hx _ _ _ _) _), ?_⟩⟩
  · rw [getV_complete_setV, getV_complete_setV, hcomm]
  · simp [getV_setV, hua.symm, huc.symm, hassoc]

/-- Settles O20: AND, OR and XOR of pairs are commutative and associative. -/
theorem commutativeAndAssociativeLaws : Obligations.CommutativeAndAssociativeLaws := by
  rintro op (rfl | rfl | rfl)
  · exact exec_comm_assoc exec_vand Pair.and_comm Pair.and_assoc
  · exact exec_comm_assoc exec_vor Pair.or_comm Pair.or_assoc
  · exact exec_comm_assoc exec_vxor Pair.xor_comm Pair.xor_assoc

/-- Settles O21: the first sequence leaves the left side of `Pair.xor_and_and_not` in `v[u]`, the second the right side. -/
theorem equivalenceIdentity : Obligations.EquivalenceIdentity := by
  intro s a b u w x hua hub _ hwb hwu _ _ hxu hxw
  refine ⟨_, _, rfl, rfl, ?_⟩
  simp [getV_setV, hua.symm, hub.symm, hwb.symm, hwu.symm, hxu.symm, hxw.symm, Pair.xor_and_and_not]

end Sys2Proof.Machine
end

section
/-! TACCX (spec/42_table_codec.md R133 to R139): its checks, the bytes it XORs into OUT, and what a second one undoes. -/

namespace Sys2Proof.Machine

section
variable {s : State} {cnt : BitVec 4} {slot : BitVec 12} {obase : BitVec 10}

/-! ### What TACCX does -/

theorem exec_taccx_inRange (hcnt : cnt.toNat ≤ 8) (hslot : slot.toNat < s.params.tabSlots)
    (hout : obase.toNat + cnt.toNat ≤ s.params.outBytes) :
    exec (.taccx cnt slot obase) s = .next (complete (accumulate s (slotAddr slot) obase.toNat cnt.toNat)) := by
  simp only [exec, execTaccx, (taccxCheck_none_iff s cnt slot obase).2 ⟨hcnt, hslot, hout⟩]

/-- A check that fails is one of three, so a TACCX with a field out of range has a cause (R134). -/
theorem exists_taccxCheck_of_outOfRange
    (h : 8 < cnt.toNat ∨ s.params.tabSlots ≤ slot.toNat ∨ s.params.outBytes < obase.toNat + cnt.toNat) :
    ∃ c, taccxCheck s cnt slot obase = some c := by
  refine Option.ne_none_iff_exists'.1 fun hnone => ?_
  obtain ⟨hcnt, hslot, hout⟩ := (taccxCheck_none_iff s cnt slot obase).1 hnone
  omega

end

/-! ### What its loop keeps and what it writes -/

@[simp] theorem accumulate_pc (s : State) (base obase n : Nat) : (accumulate s base obase n).pc = s.pc := by
  rw [accumulate_eq]

@[simp] theorem accumulate_params (s : State) (base obase n : Nat) :
    (accumulate s base obase n).params = s.params := by
  rw [accumulate_eq]

theorem accumulate_sameControl (s : State) (base obase n : Nat) : SameControl s (accumulate s base obase n) := by
  rw [accumulate_eq]
  exact ⟨rfl, rfl⟩

/-- Byte `j` of the bytes accumulated (R137). -/
theorem readOut_accumulate_byte (s : State) (base obase : Nat) {n j : Nat} (hj : j < n) :
    readOut (accumulate s base obase n) (obase + j) = readOut s (obase + j) ^^^ readTab s (base + j) := by
  rw [readOut_accumulate, if_pos (by omega), Nat.add_sub_cancel_left]

/-- Settles O25: in range TACCX is the loop of R133, out of range the fault entry of the check that fails. -/
theorem taccxAccumulatesPositionally : Obligations.TaccxAccumulatesPositionally := by
  refine ⟨fun s cnt slot obase hcnt hslot hout => ⟨_, exec_taccx_inRange hcnt hslot hout, fun j hj => ?_, ?_,
    onlyOut_complete_accumulate s _ _ _⟩, fun s cnt slot obase h => ?_, fun _ _ _ => encode_hasRow _, by decide,
    fun s hslot hout t0 t1 t2 o0 o1 o2 o3 o4 => ⟨_, exec_taccx_inRange (by decide) hslot hout, ?_⟩⟩
  · exact readOut_accumulate_byte s _ _ hj
  · rw [complete_pc, accumulate_pc]
  · obtain ⟨c, hc⟩ := exists_taccxCheck_of_outOfRange h
    exact ⟨_, c, exec_taccx_fault hc, faultTaken_takeFault c _ s⟩
  · simp [readOut_accumulate, slotAddr, t0, t1, t2, o0, o1, o2, o3, o4]

/-- Settles O26: the three causes of `taccxCheck`, and the loop when no check fails. -/
theorem taccxChecksInOrder : Obligations.TaccxChecksInOrder := by
  intro s cnt slot obase
  split_ifs with hcnt hslot hout
  · exact ⟨_, exec_taccx_fault (taccxCheck_countRange hcnt), faultTaken_takeFault _ _ s⟩
  · exact ⟨_, exec_taccx_fault (taccxCheck_slotRange (Nat.not_lt.1 hcnt) hslot), faultTaken_takeFault _ _ s⟩
  · exact ⟨_, exec_taccx_fault (taccxCheck_outRange (Nat.not_lt.1 hcnt) (Nat.not_le.1 hslot) hout),
      faultTaken_takeFault _ _ s⟩
  · refine ⟨_, exec_taccx_inRange (Nat.not_lt.1 hcnt) (Nat.not_le.1 hslot) (Nat.not_lt.1 hout), ?_,
      accumulate_sameControl s _ _ _⟩
    rw [complete_pc, accumulate_pc]

/-- Settles O27: the first check passes, the other two stay, and the loop over no byte leaves the state. -/
theorem taccxOfNoBytes : Obligations.TaccxOfNoBytes := by
  intro s slot obase
  have hcnt : (0#4).toNat ≤ 8 := by decide
  split_ifs with hslot hout
  · exact ⟨_, exec_taccx_fault (taccxCheck_slotRange hcnt hslot), faultTaken_takeFault _ _ s⟩
  · exact ⟨_, exec_taccx_fault (taccxCheck_outRange hcnt (Nat.not_le.1 hslot) hout), faultTaken_takeFault _ _ s⟩
  · exact ⟨complete s, exec_taccx_inRange hcnt (Nat.not_le.1 hslot) (Nat.not_lt.1 hout), rfl, onlyIndex_complete s⟩

/-! ### A second TACCX -/

/-- Accumulating the same bytes a second time undoes the first: `x ^^^ y ^^^ y = x` (R139). -/
theorem readOut_accumulate_twice {s u : State} {base obase n : Nat}
    (hout : ∀ a, readOut u a = readOut (accumulate s base obase n) a)
    (htab : ∀ j, j < n → readTab u (base + j) = readTab s (base + j)) (a : Nat) :
    readOut (accumulate u base obase n) a = readOut s a := by
  rw [readOut_accumulate, hout, readOut_accumulate]
  split_ifs with ha
  · rw [htab _ (by omega), BitVec.xor_assoc, BitVec.xor_self, BitVec.xor_zero]
  · rfl

/-- Settles O30: the second command is in range as the first, and runs the loop over the same bytes. -/
theorem taccxTwiceCancels : Obligations.TaccxTwiceCancels := by
  intro s cnt slot obase hcnt hslot hout
  refine ⟨_, exec_taccx_inRange hcnt hslot hout, fun u hp ho ht => ?_⟩
  rw [complete_params, accumulate_params] at hp
  refine ⟨_, exec_taccx_inRange hcnt (hp ▸ hslot) (hp ▸ hout), readOut_accumulate_twice ho fun j hj => ?_⟩
  exact (ht j (by omega)).trans (readTab_accumulate s _ _ _ _)

end Sys2Proof.Machine
end

section
/-! TLOAD and TSTORE (spec/42_table_codec.md R131, R132, R140): a slot as numbers and as byte lanes, and the round trip. -/

namespace Sys2Proof.Machine

/-! ### TLOAD: the bytes of a slot as numbers -/

/-- A byte joined below a value, as a number. -/
theorem toNat_append_byte {m : Nat} (x : BitVec m) (y : Byte) : (x ++ y).toNat = y.toNat + x.toNat * 2 ^ 8 := by
  rw [BitVec.toNat_append, ← Nat.shiftLeft_add_eq_or_of_lt y.isLt, Nat.shiftLeft_eq, Nat.add_comm]

/-- Four bytes joined, lowest first, as a number (R131). -/
theorem toNat_fourBytes (a b c d : Byte) :
    (d ++ c ++ b ++ a : BitVec 32).toNat = a.toNat + b.toNat * 2 ^ 8 + c.toNat * 2 ^ 16 + d.toNat * 2 ^ 24 := by
  rw [toNat_append_byte, toNat_append_byte, toNat_append_byte]
  omega

/-- Settles O23: TLOAD writes the pair whose words are the bytes of the slot joined, four and four. -/
theorem tloadLoadsTheSlot : Obligations.TloadLoadsTheSlot := by
  refine ⟨fun s r slot h => ⟨_, exec_tload_inRange r h, ?_, ?_, writtenV_setV_same s r (readSlot s slot), rfl,
    onlyV_complete_setV s r _⟩,
    fun s r slot h => ⟨_, exec_tload_outOfRange r h, faultTaken_takeFault _ _ s⟩,
    fun _ _ => encode_hasRow _, by decide, fun s h h0 h1 h2 h3 h4 h5 h6 h7 => exec_getV_eq (exec_tload_inRange 1 h) ?_⟩
  · rw [getV_complete_setV]
    exact toNat_fourBytes _ _ _ _
  · rw [getV_complete_setV]
    exact toNat_fourBytes _ _ _ _
  · simp [readSlot, Pair.ofLanes, slotAddr, h0, h1, h2, h3, h4, h5, h6, h7]

/-! ### TSTORE: the byte lanes of a pair as bytes of a slot -/

@[simp] theorem writeSlot_pc (s : State) (slot : BitVec 12) (p : Pair) : (writeSlot s slot p).pc = s.pc := by
  rw [writeSlot, storeLanes_eq]

@[simp] theorem writeSlot_params (s : State) (slot : BitVec 12) (p : Pair) : (writeSlot s slot p).params = s.params := by
  rw [writeSlot, storeLanes_eq]

/-- Settles O24: byte `j` of the slot is byte lane `j` of the pair. -/
theorem tstoreStoresTheSlot : Obligations.TstoreStoresTheSlot := by
  refine ⟨fun s r slot h => ⟨_, exec_tstore_inRange r h, fun j hj => readTab_writeSlot_byte s slot _ hj, rfl, ?_,
    onlySlot_complete_writeSlot s slot _⟩,
    fun s r slot h => ⟨_, exec_tstore_outOfRange r h, faultTaken_takeFault _ _ s⟩,
    fun _ _ => encode_hasRow _, by decide, fun s h h0 => ⟨_, exec_tstore_inRange 0 h, ?_⟩⟩
  · rw [complete_pc, writeSlot_pc]
  · simp only [readTab_complete]
    have hbyte := fun j (hj : j < 8) => readTab_writeSlot_byte s 0 (getV s 0) hj
    rw [h0] at hbyte ⊢
    exact ⟨hbyte 0 (by decide), hbyte 1 (by decide), hbyte 2 (by decide), hbyte 3 (by decide), hbyte 4 (by decide),
      hbyte 5 (by decide), hbyte 6 (by decide), hbyte 7 (by decide)⟩

/-! ### The round trip -/

/-- The pair read from a slot depends on the 8 bytes of the slot alone. -/
theorem readSlot_congr {s u : State} {slot : BitVec 12}
    (h : ∀ j, j < 8 → readTab u (8 * slot.toNat + j) = readTab s (8 * slot.toNat + j)) :
    readSlot u slot = readSlot s slot :=
  Pair.ofLanes_congr h

/-- Settles O31: TLOAD reads from the slot what `readSlot_writeSlot` says TSTORE left there. -/
theorem loadAfterStoreIsTheIdentity : Obligations.LoadAfterStoreIsTheIdentity := by
  intro s ra rb slot h
  refine ⟨_, exec_tstore_inRange ra h, fun u hp ht => ?_⟩
  rw [complete_params, writeSlot_params] at hp
  exact exec_getV_eq (exec_tload_inRange rb (hp ▸ h)) ((readSlot_congr ht).trans (readSlot_writeSlot s slot _))

end Sys2Proof.Machine
end

section
/-! The commands of the Byte Lane Algebra (spec/43_byte_lane_algebra.md R151 to R156): what each writes, said once, and with it
the statement of each command. -/

namespace Sys2Proof.Machine

/-! ### What each command writes -/

section
variable {s : State} {g : ShiftGrain} (rd ra rb : Reg)

theorem exec_band (s : State) : exec (.band rd ra rb) s = .next (complete (setB s rd ((getB s ra).and (getB s rb)))) := rfl

theorem exec_bor (s : State) : exec (.bor rd ra rb) s = .next (complete (setB s rd ((getB s ra).or (getB s rb)))) := rfl

theorem exec_bxor (s : State) : exec (.bxor rd ra rb) s = .next (complete (setB s rd ((getB s ra).xor (getB s rb)))) := rfl

theorem exec_bmask {k : BitVec 4} {m : Byte} (h : s.params.masks[k.toNat]? = some m) :
    exec (.bmask rd k) s = .next (complete (setB s rd (.ofLanes fun _ => m))) := by
  rw [exec, execBmask, maskByte, h]
  rfl

theorem exec_bmask_missing {k : BitVec 4} (h : s.params.nmask ≤ k.toNat) :
    exec (.bmask rd k) s = .next (takeFault .illegalCommand (encode (.bmask rd k)) s) := by
  rw [exec, execBmask, maskByte, List.getElem?_eq_none h]

theorem exec_bshl (n : BitVec 5) (hg : s.params.grain = g) :
    exec (.bshl rd ra n) s = .next (complete (setB s rd ((getB s ra).shiftLeft g n.toNat))) := hg ▸ rfl

theorem exec_bshr (n : BitVec 5) (hg : s.params.grain = g) :
    exec (.bshr rd ra n) s = .next (complete (setB s rd ((getB s ra).shiftRight g n.toNat))) := hg ▸ rfl

end

/-! ### A command that writes a B register and completes -/

section
variable {i : Instr} {s : State} {rd : Reg} {p : Pair}

theorem getB_complete_setB (s : State) (rd : Reg) (p : Pair) : getB (complete (setB s rd p)) rd = p := by
  rw [getB_complete, getB_setB_same]

/-- The contents of the register, its mark, the host's index and the frame. -/
theorem exec_writesB (hx : exec i s = .next (complete (setB s rd p))) :
    ∃ t, exec i s = .next t ∧ getB t rd = p ∧ writtenB t rd = true ∧ t.pc = s.pc + 1 ∧ OnlyB rd s t :=
  ⟨_, hx, getB_complete_setB s rd p, writtenB_setB_same s rd p, rfl, onlyB_complete_setB s rd p⟩

theorem exec_getB_eq {q : Pair} (hx : exec i s = .next (complete (setB s rd p))) (hp : p = q) :
    ∃ t, exec i s = .next t ∧ getB t rd = q :=
  ⟨_, hx, (getB_complete_setB s rd p).trans hp⟩

/-- The contents of the register, as a pair and byte lane by byte lane, with the rest of `exec_writesB`. -/
theorem exec_writesB_blanes (hx : exec i s = .next (complete (setB s rd p))) {f : Nat → Byte}
    (hf : ∀ b, b < 8 → p.blane b = f b) :
    ∃ t, exec i s = .next t ∧ getB t rd = p ∧ (∀ b, b < 8 → (getB t rd).blane b = f b) ∧
      writtenB t rd = true ∧ t.pc = s.pc + 1 ∧ OnlyB rd s t := by
  obtain ⟨t, ht, hp, hframe⟩ := exec_writesB hx
  exact ⟨t, ht, hp, hp.symm ▸ hf, hframe⟩

end

/-! ### BAND, BOR and BXOR -/

/-- Settles O32: BAND writes `Pair.and`, which is AND in every byte lane. -/
theorem bandIsAndOnEveryByteLane : Obligations.BandIsAndOnEveryByteLane := by
  refine ⟨fun s rd ra rb => exec_writesB_blanes (exec_band rd ra rb s) fun b _ => Pair.blane_and _ _ b,
    fun _ _ _ => encode_hasRow _, by decide, fun s h0 h1 => exec_getB_eq (exec_band 2 0 1 s) ?_⟩
  rw [h0, h1]
  decide

/-- Settles O33: BOR writes `Pair.or`, which is OR in every byte lane. -/
theorem borIsOrOnEveryByteLane : Obligations.BorIsOrOnEveryByteLane := by
  refine ⟨fun s rd ra rb => exec_writesB_blanes (exec_bor rd ra rb s) fun b _ => Pair.blane_or _ _ b,
    fun _ _ _ => encode_hasRow _, by decide, fun s h0 h1 => exec_getB_eq (exec_bor 2 0 1 s) ?_⟩
  rw [h0, h1]
  decide

/-- Settles O34: BXOR writes `Pair.xor`, which is XOR in every byte lane. -/
theorem bxorIsXorOnEveryByteLane : Obligations.BxorIsXorOnEveryByteLane := by
  refine ⟨fun s rd ra rb => exec_writesB_blanes (exec_bxor rd ra rb s) fun b _ => Pair.blane_xor _ _ b,
    fun _ _ _ => encode_hasRow _, by decide, fun s h0 h1 => exec_getB_eq (exec_bxor 2 0 1 s) ?_⟩
  rw [h0, h1]
  decide

/-! ### BMASK -/

/-- A byte in each of the four places of a word is its product with 0x01010101 (R154). -/
theorem fourBytes_eq_mul (m : Byte) : (m ++ m ++ m ++ m : BitVec 32) = m.setWidth 32 * 0x01010101#32 := by
  refine BitVec.eq_of_toNat_eq ((toNat_fourBytes m m m m).trans ?_)
  rw [BitVec.toNat_mul, BitVec.toNat_setWidth, BitVec.toNat_ofNat]
  omega

theorem ofLanes_const (m : Byte) :
    Pair.ofLanes (fun _ => m) = ⟨m.setWidth 32 * 0x01010101#32, m.setWidth 32 * 0x01010101#32⟩ :=
  Pair.ext_words (fourBytes_eq_mul m) (fourBytes_eq_mul m)

/-- Settles O35: the byte of an existing mask constant in every byte lane, the fault entry for a missing one. -/
theorem bmaskRepeatsItsByte : Obligations.BmaskRepeatsItsByte := by
  refine ⟨fun s rd k h => ?_, fun s rd k h => ⟨_, exec_bmask_missing rd h, faultTaken_takeFault _ _ s⟩,
    fun _ _ => encode_hasRow _, by decide, fun s h => exec_getB_eq (exec_bmask 1 h) ?_⟩
  · have hm : s.params.masks[k.toNat]? = some s.params.masks[k.toNat] := List.getElem?_eq_getElem h
    obtain ⟨t, ht, hp, hlanes, hframe⟩ := exec_writesB_blanes (exec_bmask rd hm) fun b => Pair.blane_ofLanes _
    exact ⟨_, t, hm, ht, hp.trans (ofLanes_const _), hlanes, hframe⟩
  · decide

/-! ### BSHL and BSHR with SHIFT_GRAIN = 32 -/

theorem toNat_shiftLeft_eq_mul (x : Word) (n : Nat) : (x <<< n).toNat = x.toNat * 2 ^ n % 2 ^ 32 := by
  rw [BitVec.toNat_shiftLeft, Nat.shiftLeft_eq]

theorem toNat_ushiftRight_eq_div (x : Word) (n : Nat) : (x >>> n).toNat = x.toNat / 2 ^ n := by
  rw [BitVec.toNat_ushiftRight, Nat.shiftRight_eq_div_pow]

/-- Settles O36: BSHL writes both words shifted left, which is a product modulo 2^32. -/
theorem bshlShiftsEachWordLeft : Obligations.BshlShiftsEachWordLeft := by
  refine ⟨fun s rd ra n hg => ?_, fun _ _ _ => encode_hasRow _, by decide,
    fun s hg h => exec_getB_eq (exec_bshl 3 2 1 hg) ?_⟩
  · obtain ⟨t, ht, hp, hframe⟩ := exec_writesB (exec_bshl rd ra n hg)
    refine ⟨t, ht, hp, ?_, ?_, hframe⟩
    · exact hp ▸ toNat_shiftLeft_eq_mul _ _
    · exact hp ▸ toNat_shiftLeft_eq_mul _ _
  · rw [h]
    decide

/-- Settles O37: BSHR writes both words shifted right, which is a quotient. -/
theorem bshrShiftsEachWordRight : Obligations.BshrShiftsEachWordRight := by
  refine ⟨fun s rd ra n hg => ?_, fun _ _ _ => encode_hasRow _, by decide,
    fun s hg h => exec_getB_eq (exec_bshr 6 5 4 hg) ?_⟩
  · obtain ⟨t, ht, hp, hframe⟩ := exec_writesB (exec_bshr rd ra n hg)
    refine ⟨t, ht, hp, ?_, ?_, hframe⟩
    · exact hp ▸ toNat_ushiftRight_eq_div _ _
    · exact hp ▸ toNat_ushiftRight_eq_div _ _
  · rw [h]
    decide

end Sys2Proof.Machine
end

section
/-! What the byte-lane shifts do lane by lane, under either grain (spec/43_byte_lane_algebra.md R157 to R160, R165), and the
statements that follow from it. -/

namespace Sys2Proof

/-! ### The words and byte lanes of a pair, by its lanes -/

section
variable (p : Pair) {i : Nat}

theorem Pair.lane_eq_lo (h : i < 32) : p.lane i = p.lo.getLsbD i := by
  rw [Pair.lane_eq, if_pos h]

theorem Pair.lane_eq_hi (i : Nat) : p.lane (32 + i) = p.hi.getLsbD i := by
  rw [Pair.lane_eq, if_neg (by omega), Nat.add_sub_cancel_left]

theorem Pair.lane_eq_blane (b : Nat) (h : i < 8) : p.lane (8 * b + i) = (p.blane b).getLsbD i := by
  rw [Pair.getLsbD_blane, decide_eq_true h, Bool.true_and]

end

@[simp] theorem Pair.blane_zero (b : Nat) : Pair.zero.blane b = 0x00#8 := by
  refine BitVec.eq_of_getLsbD_eq fun i hi => ?_
  rw [← Pair.lane_eq_blane _ b hi, Pair.lane_zero, BitVec.getLsbD_zero]

theorem Pair.eq_iff_lanes {p q : Pair} : p = q ↔ ∀ l, l < 64 → p.lane l = q.lane l :=
  ⟨fun h _ _ => h ▸ rfl, Pair.ext_lanes⟩

/-! ### One bit of a shifted word or byte -/

section
variable {w i : Nat} (x : BitVec w) (n : Nat)

theorem getLsbD_shiftLeft_eq_ite (hi : i < w) :
    (x <<< n).getLsbD i = if n ≤ i then x.getLsbD (i - n) else false := by
  rw [BitVec.getLsbD_shiftLeft]
  split_ifs with h
  · simp [hi, h]
  · simp [show i < n by omega]

theorem getLsbD_ushiftRight_eq_ite :
    (x >>> n).getLsbD i = if i + n < w then x.getLsbD (i + n) else false := by
  rw [BitVec.getLsbD_ushiftRight, Nat.add_comm n i]
  split_ifs with h
  · rfl
  · exact BitVec.getLsbD_of_ge x _ (Nat.le_of_not_lt h)

end

section
variable (x : Byte) (n : Nat)

theorem byte_shiftLeft_eq_ite : x <<< n = if n ≤ 7 then x <<< n else 0x00#8 := by
  split_ifs with h
  · rfl
  · exact BitVec.shiftLeft_eq_zero (Nat.lt_of_not_le h)

theorem byte_ushiftRight_eq_ite : x >>> n = if n ≤ 7 then x >>> n else 0x00#8 := by
  split_ifs with h
  · rfl
  · exact BitVec.ushiftRight_eq_zero (Nat.lt_of_not_le h)

end

/-! ### One lane of a shifted pair -/

/-- SHIFT_GRAIN as a number: how many adjacent lanes a shift moves bits within (R8). -/
def ShiftGrain.width : ShiftGrain → Nat
  | .word => 32
  | .byteLane => 8

section
variable (g : ShiftGrain) (p : Pair) (n : Nat) {b l : Nat}

theorem Pair.blane_shiftLeft_byteLane (hb : b < 8) : (p.shiftLeft .byteLane n).blane b = p.blane b <<< n :=
  Pair.blane_ofLanes (fun b => p.blane b <<< n) hb

theorem Pair.blane_shiftRight_byteLane (hb : b < 8) : (p.shiftRight .byteLane n).blane b = p.blane b >>> n :=
  Pair.blane_ofLanes (fun b => p.blane b >>> n) hb

/-- A left shift takes each lane from `n` places below, and false where that is outside the grain (R155, R165). -/
theorem Pair.lane_shiftLeft (hl : l < 64) :
    (p.shiftLeft g n).lane l = if n ≤ l % g.width then p.lane (l - n) else false := by
  cases g with
  | word =>
    change _ = if n ≤ l % 32 then _ else _
    rcases Nat.lt_or_ge l 32 with h | h
    · rw [Pair.lane_eq_lo _ h, Nat.mod_eq_of_lt h]
      exact (getLsbD_shiftLeft_eq_ite _ n h).trans
        (ite_congr rfl (fun _ => (p.lane_eq_lo (by omega)).symm) fun _ => rfl)
    · obtain ⟨i, rfl⟩ := Nat.exists_eq_add_of_le h
      have hi : i < 32 := by omega
      rw [Pair.lane_eq_hi, Nat.add_mod_left, Nat.mod_eq_of_lt hi]
      exact (getLsbD_shiftLeft_eq_ite _ n hi).trans
        (ite_congr rfl (fun hn => by rw [Nat.add_sub_assoc hn, Pair.lane_eq_hi]) fun _ => rfl)
  | byteLane =>
    have hi : l % 8 < 8 := Nat.mod_lt l (by decide)
    change _ = if n ≤ l % 8 then _ else _
    conv_lhs => rw [← Nat.div_add_mod l 8, Pair.lane_eq_blane _ _ hi, Pair.blane_shiftLeft_byteLane p n (by omega)]
    refine (getLsbD_shiftLeft_eq_ite _ n hi).trans (ite_congr rfl (fun hn => ?_) fun _ => rfl)
    rw [← Pair.lane_eq_blane p _ (by omega), ← Nat.add_sub_assoc hn, Nat.div_add_mod]

/-- A right shift takes each lane from `n` places above, and false where that is outside the grain (R156, R165). -/
theorem Pair.lane_shiftRight (hl : l < 64) :
    (p.shiftRight g n).lane l = if l % g.width + n < g.width then p.lane (l + n) else false := by
  cases g with
  | word =>
    change _ = if l % 32 + n < 32 then _ else _
    rcases Nat.lt_or_ge l 32 with h | h
    · rw [Pair.lane_eq_lo _ h, Nat.mod_eq_of_lt h]
      exact (getLsbD_ushiftRight_eq_ite _ n).trans
        (ite_congr rfl (fun hn => (p.lane_eq_lo hn).symm) fun _ => rfl)
    · obtain ⟨i, rfl⟩ := Nat.exists_eq_add_of_le h
      rw [Pair.lane_eq_hi, Nat.add_mod_left, Nat.mod_eq_of_lt (by omega), Nat.add_assoc, Pair.lane_eq_hi]
      exact getLsbD_ushiftRight_eq_ite _ n
  | byteLane =>
    have hi : l % 8 < 8 := Nat.mod_lt l (by decide)
    change _ = if l % 8 + n < 8 then _ else _
    conv_lhs => rw [← Nat.div_add_mod l 8, Pair.lane_eq_blane _ _ hi, Pair.blane_shiftRight_byteLane p n (by omega)]
    refine (getLsbD_ushiftRight_eq_ite _ n).trans (ite_congr rfl (fun hn => ?_) fun _ => rfl)
    rw [← Pair.lane_eq_blane p _ hn, ← Nat.add_assoc, Nat.div_add_mod]

end

/-! ### The shifts compose -/

section
variable (g : ShiftGrain) (p : Pair) (m n : Nat)

theorem Pair.shiftLeft_add : p.shiftLeft g (m + n) = (p.shiftLeft g m).shiftLeft g n := by
  cases g with
  | word => exact Pair.ext_words (BitVec.shiftLeft_add _ m n) (BitVec.shiftLeft_add _ m n)
  | byteLane =>
    refine Pair.ext_blanes fun b hb => ?_
    simp only [Pair.blane_shiftLeft_byteLane _ _ hb, BitVec.shiftLeft_add]

theorem Pair.shiftRight_add : p.shiftRight g (m + n) = (p.shiftRight g m).shiftRight g n := by
  cases g with
  | word => exact Pair.ext_words (BitVec.shiftRight_add _ m n) (BitVec.shiftRight_add _ m n)
  | byteLane =>
    refine Pair.ext_blanes fun b hb => ?_
    simp only [Pair.blane_shiftRight_byteLane _ _ hb, BitVec.shiftRight_add]

theorem Pair.shiftLeft_zero : p.shiftLeft g 0 = p := by
  refine Pair.ext_lanes fun l hl => ?_
  rw [Pair.lane_shiftLeft g p 0 hl, if_pos (Nat.zero_le _), Nat.sub_zero]

theorem Pair.shiftRight_zero : p.shiftRight g 0 = p := by
  have hwidth : 0 < g.width := by cases g <;> decide
  refine Pair.ext_lanes fun l hl => ?_
  rw [Pair.lane_shiftRight g p 0 hl, Nat.add_zero, Nat.add_zero, if_pos (Nat.mod_lt l hwidth)]

theorem Pair.zero_shiftLeft : Pair.zero.shiftLeft g n = .zero := by
  refine Pair.ext_lanes fun l hl => ?_
  rw [Pair.lane_shiftLeft g _ n hl, Pair.lane_zero, Pair.lane_zero, ite_self]

theorem Pair.zero_shiftRight : Pair.zero.shiftRight g n = .zero := by
  refine Pair.ext_lanes fun l hl => ?_
  rw [Pair.lane_shiftRight g _ n hl, Pair.lane_zero, Pair.lane_zero, ite_self]

end

/-! ### A shift keeps to the words, and empties places -/

section
variable {g : ShiftGrain} {i n : Nat}

theorem ShiftGrain.add_mod_width (g : ShiftGrain) (i : Nat) : (32 + i) % g.width = i % g.width := by
  cases g with
  | word => exact Nat.add_mod_left 32 i
  | byteLane => exact Nat.mul_add_mod 8 4 i

theorem ShiftGrain.add_lt_of_mod_add_lt (hi : i < 32) (h : i % g.width + n < g.width) : i + n < 32 := by
  cases g with
  | word => exact Nat.mod_eq_of_lt hi ▸ h
  | byteLane =>
    change i % 8 + n < 8 at h
    omega

/-- The `n` places at the top of a word are the ones a right shift by `n` empties. -/
theorem ShiftGrain.width_le_mod_add (g : ShiftGrain) {l : Nat} (hl : l < n) (hn : n < 32) :
    g.width ≤ (31 - l) % g.width + n := by
  cases g with
  | word =>
    change 32 ≤ (31 - l) % 32 + n
    omega
  | byteLane =>
    change 8 ≤ (31 - l) % 8 + n
    omega

end

section
variable (g : ShiftGrain) (p : Pair) (n : Nat) {i : Nat}

theorem Pair.getLsbD_shiftLeft_lo (hi : i < 32) :
    (p.shiftLeft g n).lo.getLsbD i = if n ≤ i % g.width then p.lo.getLsbD (i - n) else false := by
  rw [← Pair.lane_eq_lo _ hi, Pair.lane_shiftLeft g p n (by omega), Pair.lane_eq_lo p (by omega)]

theorem Pair.getLsbD_shiftLeft_hi (hi : i < 32) :
    (p.shiftLeft g n).hi.getLsbD i = if n ≤ i % g.width then p.hi.getLsbD (i - n) else false := by
  rw [← Pair.lane_eq_hi, Pair.lane_shiftLeft g p n (by omega), g.add_mod_width]
  refine ite_congr rfl (fun h => ?_) fun _ => rfl
  rw [Nat.add_sub_assoc (h.trans (Nat.mod_le i _)), Pair.lane_eq_hi]

theorem Pair.getLsbD_shiftRight_lo (hi : i < 32) :
    (p.shiftRight g n).lo.getLsbD i = if i % g.width + n < g.width then p.lo.getLsbD (i + n) else false := by
  rw [← Pair.lane_eq_lo _ hi, Pair.lane_shiftRight g p n (by omega)]
  exact ite_congr rfl (fun h => p.lane_eq_lo (ShiftGrain.add_lt_of_mod_add_lt hi h)) fun _ => rfl

theorem Pair.getLsbD_shiftRight_hi (hi : i < 32) :
    (p.shiftRight g n).hi.getLsbD i = if i % g.width + n < g.width then p.hi.getLsbD (i + n) else false := by
  rw [← Pair.lane_eq_hi, Pair.lane_shiftRight g p n (by omega), g.add_mod_width, Nat.add_assoc, Pair.lane_eq_hi]

variable {p} {q : Pair}

theorem Pair.shiftLeft_lo_congr (h : p.lo = q.lo) : (p.shiftLeft g n).lo = (q.shiftLeft g n).lo :=
  BitVec.eq_of_getLsbD_eq fun i hi => by
    rw [Pair.getLsbD_shiftLeft_lo g p n hi, Pair.getLsbD_shiftLeft_lo g q n hi, h]

theorem Pair.shiftLeft_hi_congr (h : p.hi = q.hi) : (p.shiftLeft g n).hi = (q.shiftLeft g n).hi :=
  BitVec.eq_of_getLsbD_eq fun i hi => by
    rw [Pair.getLsbD_shiftLeft_hi g p n hi, Pair.getLsbD_shiftLeft_hi g q n hi, h]

theorem Pair.shiftRight_lo_congr (h : p.lo = q.lo) : (p.shiftRight g n).lo = (q.shiftRight g n).lo :=
  BitVec.eq_of_getLsbD_eq fun i hi => by
    rw [Pair.getLsbD_shiftRight_lo g p n hi, Pair.getLsbD_shiftRight_lo g q n hi, h]

theorem Pair.shiftRight_hi_congr (h : p.hi = q.hi) : (p.shiftRight g n).hi = (q.shiftRight g n).hi :=
  BitVec.eq_of_getLsbD_eq fun i hi => by
    rw [Pair.getLsbD_shiftRight_hi g p n hi, Pair.getLsbD_shiftRight_hi g q n hi, h]

end

/-! ### The byte lanes of a shifted word -/

/-- The rule's X (R157): byte lane `t` of word `w`, 0x00 outside the word. -/
def Pair.wordByte (p : Pair) (w : Nat) (t : Int) : Byte :=
  if 0 ≤ t ∧ t ≤ 3 then p.blane (4 * w + t.toNat) else 0x00#8

section
variable (p : Pair) {i w q : Nat} (n : Nat)

theorem Pair.getLsbD_wordByte (w : Nat) (t : Int) (hi : i < 8) :
    (p.wordByte w t).getLsbD i = if 0 ≤ t ∧ t ≤ 3 then p.lane (8 * (4 * w + t.toNat) + i) else false := by
  rw [Pair.wordByte, Pair.lane_eq_blane p _ hi]
  split_ifs
  · rfl
  · exact BitVec.getLsbD_zero

/-- R157 for BSHL: the byte lane `n / 8` places below gives the bits from `n % 8` on, the one below that gives the rest. -/
theorem Pair.blane_shiftLeft_word (hw : w < 2) (hq : q < 4) :
    (p.shiftLeft .word n).blane (4 * w + q) = (p.wordByte w ((q : Int) - (n / 8 : Nat)) <<< (n % 8)) |||
      (p.wordByte w ((q : Int) - (n / 8 : Nat) - 1) >>> (8 - n % 8)) := by
  refine BitVec.eq_of_getLsbD_eq fun i hi => ?_
  rw [← Pair.lane_eq_blane _ _ hi, Pair.lane_shiftLeft .word p n (by omega), BitVec.getLsbD_or,
    getLsbD_shiftLeft_eq_ite _ _ hi, getLsbD_ushiftRight_eq_ite]
  change (if n ≤ (8 * (4 * w + q) + i) % 32 then _ else _) = _
  by_cases h : n % 8 ≤ i
  · rw [if_pos h, if_neg (show ¬i + (8 - n % 8) < 8 by omega), Bool.or_false, Pair.getLsbD_wordByte p _ _ (by omega)]
    exact ite_congr (propext (by omega)) (fun _ => congrArg p.lane (by omega)) fun _ => rfl
  · rw [if_neg h, if_pos (show i + (8 - n % 8) < 8 by omega), Bool.false_or, Pair.getLsbD_wordByte p _ _ (by omega)]
    exact ite_congr (propext (by omega)) (fun _ => congrArg p.lane (by omega)) fun _ => rfl

/-- R157 for BSHR: the byte lane `n / 8` places above gives the bits below `8 - n % 8`, the one above that gives the rest. -/
theorem Pair.blane_shiftRight_word (hw : w < 2) (hq : q < 4) :
    (p.shiftRight .word n).blane (4 * w + q) = (p.wordByte w ((q : Int) + (n / 8 : Nat)) >>> (n % 8)) |||
      (p.wordByte w ((q : Int) + (n / 8 : Nat) + 1) <<< (8 - n % 8)) := by
  refine BitVec.eq_of_getLsbD_eq fun i hi => ?_
  rw [← Pair.lane_eq_blane _ _ hi, Pair.lane_shiftRight .word p n (by omega), BitVec.getLsbD_or,
    getLsbD_shiftLeft_eq_ite _ _ hi, getLsbD_ushiftRight_eq_ite]
  change (if (8 * (4 * w + q) + i) % 32 + n < 32 then _ else _) = _
  by_cases h : i + n % 8 < 8
  · rw [if_pos h, if_neg (show ¬8 - n % 8 ≤ i by omega), Bool.or_false, Pair.getLsbD_wordByte p _ _ h]
    exact ite_congr (propext (by omega)) (fun _ => congrArg p.lane (by omega)) fun _ => rfl
  · rw [if_neg h, if_pos (show 8 - n % 8 ≤ i by omega), Bool.false_or, Pair.getLsbD_wordByte p _ _ (by omega)]
    exact ite_congr (propext (by omega)) (fun _ => congrArg p.lane (by omega)) fun _ => rfl

/-- A left shift by 8k moves whole byte lanes (R158). -/
theorem Pair.blane_shiftLeft_bytes (k : Nat) (hw : w < 2) (hq : q < 4) :
    (p.shiftLeft .word (8 * k)).blane (4 * w + q) = if k ≤ q then p.blane (4 * w + (q - k)) else 0x00#8 := by
  rw [Pair.blane_shiftLeft_word p _ hw hq, Nat.mul_mod_right, Nat.mul_div_cancel_left k (by decide),
    BitVec.shiftLeft_zero, BitVec.ushiftRight_eq_zero (Nat.le_refl 8), BitVec.or_zero]
  exact ite_congr (propext (by omega)) (fun _ => congrArg p.blane (by omega)) fun _ => rfl

/-- A right shift by 8k moves whole byte lanes (R158). -/
theorem Pair.blane_shiftRight_bytes (k : Nat) (hw : w < 2) (hq : q < 4) :
    (p.shiftRight .word (8 * k)).blane (4 * w + q) = if q + k < 4 then p.blane (4 * w + (q + k)) else 0x00#8 := by
  rw [Pair.blane_shiftRight_word p _ hw hq, Nat.mul_mod_right, Nat.mul_div_cancel_left k (by decide),
    BitVec.ushiftRight_zero, BitVec.shiftLeft_eq_zero (Nat.le_refl 8), BitVec.or_zero]
  exact ite_congr (propext (by omega)) (fun _ => congrArg p.blane (by omega)) fun _ => rfl

end

end Sys2Proof

namespace Sys2Proof.Machine

/-! ### The statements about the commands -/

/-- Settles O38: the bits are those of the shifted words, the byte lanes those of `Pair.blane_shiftLeft_word` and its mirror. -/
theorem shiftsBitByBitAndLaneByLane : Obligations.ShiftsBitByBitAndLaneByLane := by
  intro s rd ra n X hg hX
  obtain rfl : X = (getB s ra).wordByte := funext fun w => funext (hX w)
  refine ⟨⟨_, exec_bshl rd ra n hg, ?_⟩, ⟨_, exec_bshr rd ra n hg, ?_⟩⟩
  · rw [getB_complete_setB]
    exact ⟨fun i hi => getLsbD_shiftLeft_eq_ite _ _ hi, fun i hi => getLsbD_shiftLeft_eq_ite _ _ hi,
      fun w q hw hq => Pair.blane_shiftLeft_word _ _ hw hq⟩
  · rw [getB_complete_setB]
    simp only [← Nat.lt_succ_iff]
    exact ⟨fun i _ => getLsbD_ushiftRight_eq_ite _ _, fun i _ => getLsbD_ushiftRight_eq_ite _ _,
      fun w q hw hq => Pair.blane_shiftRight_word _ _ hw hq⟩

/-- One bit of a word shifted left by 31. -/
theorem getLsbD_shiftLeft_31 (x : Word) {i : Nat} (hi : i < 32) :
    (x <<< 31).getLsbD i = (i == 31 && x.getLsbD 0) := by
  rw [getLsbD_shiftLeft_eq_ite x 31 hi]
  split_ifs with h
  · obtain rfl : i = 31 := by omega
    rfl
  · simp [show i ≠ 31 by omega]

/-- One bit of a word shifted right by 31. -/
theorem getLsbD_ushiftRight_31 (x : Word) (i : Nat) : (x >>> 31).getLsbD i = (i == 0 && x.getLsbD 31) := by
  rw [getLsbD_ushiftRight_eq_ite x 31]
  split_ifs with h
  · obtain rfl : i = 0 := by omega
    rfl
  · simp [show i ≠ 0 by omega]

/-- Settles O39: the amounts 0, 31 and 8k of `Pair.shiftLeft` and `Pair.shiftRight`. -/
theorem shiftAmountsAtTheEnds : Obligations.ShiftAmountsAtTheEnds := by
  intro s rd ra hg
  refine ⟨exec_getB_eq (exec_bshl rd ra 0 hg) (Pair.shiftLeft_zero _ _),
    exec_getB_eq (exec_bshr rd ra 0 hg) (Pair.shiftRight_zero _ _),
    ⟨_, exec_bshl rd ra 31 hg, fun i hi => ?_⟩, ⟨_, exec_bshr rd ra 31 hg, fun i hi => ?_⟩,
    fun k n _ _ hn => ⟨⟨_, exec_bshl rd ra n hg, fun w q hw hq => ?_⟩, ⟨_, exec_bshr rd ra n hg, fun w q hw hq => ?_⟩⟩⟩
  · rw [getB_complete_setB]
    exact ⟨getLsbD_shiftLeft_31 _ hi, getLsbD_shiftLeft_31 _ hi⟩
  · rw [getB_complete_setB]
    exact ⟨getLsbD_ushiftRight_31 _ i, getLsbD_ushiftRight_31 _ i⟩
  · rw [getB_complete_setB, hn, Pair.blane_shiftLeft_bytes _ k hw hq]
  · rw [getB_complete_setB, hn, Pair.blane_shiftRight_bytes _ k hw hq]

/-- Settles O40: a bit of a shifted word is a bit of the same word, or false in the places emptied. -/
theorem noBitPassesBetweenTheWords : Obligations.NoBitPassesBetweenTheWords := by
  refine ⟨fun s s' rd ra n hg i hi => ?_, fun s rd ra n =>
    ⟨⟨_, exec_bshl rd ra n rfl, fun l hl => ?_⟩, ⟨_, exec_bshr rd ra n rfl, fun l hl => ?_⟩⟩⟩
  · rcases hi with rfl | rfl
    · refine ⟨_, _, exec_bshl rd ra n rfl, exec_bshl rd ra n hg, ?_⟩
      rw [getB_complete_setB, getB_complete_setB]
      exact ⟨Pair.shiftLeft_lo_congr _ _, Pair.shiftLeft_hi_congr _ _⟩
    · refine ⟨_, _, exec_bshr rd ra n rfl, exec_bshr rd ra n hg, ?_⟩
      rw [getB_complete_setB, getB_complete_setB]
      exact ⟨Pair.shiftRight_lo_congr _ _, Pair.shiftRight_hi_congr _ _⟩
  · have hempty : ¬n.toNat ≤ l % s.params.grain.width := fun h => absurd (h.trans (Nat.mod_le _ _)) (Nat.not_le_of_lt hl)
    rw [getB_complete_setB, Pair.getLsbD_shiftLeft_lo _ _ _ (by omega), Pair.getLsbD_shiftLeft_hi _ _ _ (by omega),
      if_neg hempty, if_neg hempty]
    exact ⟨rfl, rfl⟩
  · have hempty := ShiftGrain.width_le_mod_add s.params.grain hl n.isLt
    rw [getB_complete_setB, Pair.getLsbD_shiftRight_lo _ _ _ (by omega), Pair.getLsbD_shiftRight_hi _ _ _ (by omega),
      if_neg (Nat.not_lt_of_le hempty), if_neg (Nat.not_lt_of_le hempty)]
    exact ⟨rfl, rfl⟩

/-- Settles O41: the laws of `Pair.shiftLeft` and `Pair.shiftRight` under the grain of the state. -/
theorem shiftsCompose : Obligations.ShiftsCompose := by
  intro s rd ra m n k hk
  refine ⟨⟨_, _, (runInstrs_cons (exec_bshl rd ra m rfl) _).trans (runInstrs_cons (exec_bshl rd rd n rfl) _),
      exec_bshl rd ra k rfl, ?_⟩,
    ⟨_, _, (runInstrs_cons (exec_bshr rd ra m rfl) _).trans (runInstrs_cons (exec_bshr rd rd n rfl) _),
      exec_bshr rd ra k rfl, ?_⟩,
    ⟨_, _, exec_bshl rd ra 0 rfl, exec_bshr rd ra 0 rfl, ?_, ?_⟩,
    fun h0 => ⟨_, _, exec_bshl rd ra n rfl, exec_bshr rd ra n rfl, ?_, ?_⟩⟩
  · simp only [getB_complete_setB, complete_params, setB_params, ← hk, Pair.shiftLeft_add]
  · simp only [getB_complete_setB, complete_params, setB_params, ← hk, Pair.shiftRight_add]
  · rw [getB_complete_setB]
    exact Pair.shiftLeft_zero _ _
  · rw [getB_complete_setB]
    exact Pair.shiftRight_zero _ _
  · rw [getB_complete_setB, h0, Pair.zero_shiftLeft]
  · rw [getB_complete_setB, h0, Pair.zero_shiftRight]

/-- Settles O42: the byte lanes of `Pair.shiftLeft` and `Pair.shiftRight` with SHIFT_GRAIN = 8. -/
theorem byteGrainShiftsStayInTheirLane : Obligations.ByteGrainShiftsStayInTheirLane := by
  intro s rd ra n hg
  obtain ⟨t, ht, -, hl, hl'⟩ := exec_writesB_blanes (exec_bshl rd ra n hg)
    fun _ hb => (Pair.blane_shiftLeft_byteLane _ _ hb).trans (byte_shiftLeft_eq_ite _ _)
  obtain ⟨u, hu, -, hr, hr'⟩ := exec_writesB_blanes (exec_bshr rd ra n hg)
    fun _ hb => (Pair.blane_shiftRight_byteLane _ _ hb).trans (byte_ushiftRight_eq_ite _ _)
  exact ⟨⟨t, ht, hl, hl'⟩, ⟨u, hu, hr, hr'⟩⟩

end Sys2Proof.Machine
end

section
/-! Where the two grains of a byte-lane shift agree (spec/43_byte_lane_algebra.md R166). -/

namespace Sys2Proof

/-! ### Shifts of 8 places and more, inside a byte lane -/

section
variable (p : Pair) {n : Nat}

theorem Pair.shiftLeft_byteLane_eq_zero (hn : 8 ≤ n) : p.shiftLeft .byteLane n = .zero := by
  refine Pair.ext_blanes fun b hb => ?_
  rw [Pair.blane_shiftLeft_byteLane p n hb, BitVec.shiftLeft_eq_zero hn, Pair.blane_zero]

theorem Pair.shiftRight_byteLane_eq_zero (hn : 8 ≤ n) : p.shiftRight .byteLane n = .zero := by
  refine Pair.ext_blanes fun b hb => ?_
  rw [Pair.blane_shiftRight_byteLane p n hb, BitVec.ushiftRight_eq_zero hn, Pair.blane_zero]

end

/-! ### Some bits of a byte are 0 -/

section
variable (x : Byte) {n : Nat}

theorem byte_eq_zero_iff : x = 0x00#8 ↔ ∀ i, i < 8 → x.getLsbD i = false := by
  simp only [BitVec.eq_of_getLsbD_eq_iff, BitVec.getLsbD_zero]

/-- The `n` most significant bits of a byte are 0. -/
theorem highBits_eq_zero_iff (hn : n ≤ 8) :
    x >>> (8 - n) = 0x00#8 ↔ ∀ i, i < 8 → 8 ≤ i + n → x.getLsbD i = false := by
  rw [byte_eq_zero_iff]
  refine ⟨fun h i hi hin => ?_, fun h i hi => ?_⟩
  · have hbit := h (i - (8 - n)) (by omega)
    rwa [BitVec.getLsbD_ushiftRight, Nat.add_sub_cancel' (by omega)] at hbit
  · rw [getLsbD_ushiftRight_eq_ite]
    split_ifs with hlt
    · exact h _ hlt (by omega)
    · rfl

/-- The `n` least significant bits of a byte are 0. -/
theorem lowBits_eq_zero_iff :
    x &&& BitVec.ofNat 8 (2 ^ n - 1) = 0x00#8 ↔ ∀ i, i < 8 → i < n → x.getLsbD i = false := by
  rw [byte_eq_zero_iff]
  refine forall₂_congr fun _ hi => ?_
  rw [BitVec.getLsbD_and, BitVec.getLsbD_ofNat, Nat.testBit_two_pow_sub_one, decide_eq_true hi, Bool.true_and]
  simp only [Bool.and_eq_false_iff, decide_eq_false_iff_not, or_comm, ← imp_iff_not_or]

end

/-! ### Lanes that would cross the edge of a byte lane -/

section
variable (p : Pair) (n : Nat)

/-- The grains differ in the lanes that a left shift takes from the byte lane below, in the same word. -/
theorem Pair.shiftLeft_grains_eq_iff : p.shiftLeft .word n = p.shiftLeft .byteLane n ↔
    ∀ l, l < 64 → n ≤ l % 32 → l % 8 < n → p.lane (l - n) = false := by
  rw [Pair.eq_iff_lanes]
  refine forall₂_congr fun l hl => ?_
  rw [Pair.lane_shiftLeft .word p n hl, Pair.lane_shiftLeft .byteLane p n hl]
  change ((if n ≤ l % 32 then _ else _) = if n ≤ l % 8 then _ else _) ↔ _
  have hmod : l % 8 ≤ l % 32 := by omega
  split_ifs with h32 h8
  · simp [Nat.not_lt_of_le h8]
  · simp [h32, Nat.lt_of_not_le h8]
  · omega
  · simp [h32]

/-- The grains differ in the lanes that a right shift takes from the byte lane above, in the same word. -/
theorem Pair.shiftRight_grains_eq_iff : p.shiftRight .word n = p.shiftRight .byteLane n ↔
    ∀ l, l < 64 → l % 32 + n < 32 → 8 ≤ l % 8 + n → p.lane (l + n) = false := by
  rw [Pair.eq_iff_lanes]
  refine forall₂_congr fun l hl => ?_
  rw [Pair.lane_shiftRight .word p n hl, Pair.lane_shiftRight .byteLane p n hl]
  change ((if l % 32 + n < 32 then _ else _) = if l % 8 + n < 8 then _ else _) ↔ _
  split_ifs with h32 h8
  · simp [Nat.not_le_of_lt h8]
  · simp [h32, Nat.le_of_not_lt h8]
  · omega
  · simp [h32]

end

section
variable (p : Pair) {n : Nat}

/-- R166 for BSHL: the bits a left shift would carry out of a byte lane below the top of its word are 0. -/
theorem Pair.shiftLeft_grains_eq_iff_highBits (hn : n ≤ 7) : p.shiftLeft .word n = p.shiftLeft .byteLane n ↔
    ∀ i, i ∈ [0, 1, 2, 4, 5, 6] → p.blane i >>> (8 - n) = 0x00#8 := by
  have hmem : ∀ i, i ∈ [0, 1, 2, 4, 5, 6] ↔ i < 8 ∧ i % 4 ≠ 3 := fun i => by simp; omega
  simp only [hmem, highBits_eq_zero_iff _ (show n ≤ 8 by omega), Pair.shiftLeft_grains_eq_iff]
  refine ⟨fun h b hb i hi hin => ?_, fun h l hl h32 h8 => ?_⟩
  · rw [← Pair.lane_eq_blane p b hi, ← Nat.add_sub_cancel (n := 8 * b + i) (m := n)]
    exact h _ (by omega) (by omega) (by omega)
  · rw [← Nat.div_add_mod (l - n) 8, Pair.lane_eq_blane p _ (Nat.mod_lt _ (by decide))]
    exact h _ (by omega) _ (by omega) (by omega)

/-- R166 for BSHR: the bits a right shift would carry out of a byte lane above the bottom of its word are 0. -/
theorem Pair.shiftRight_grains_eq_iff_lowBits (hn : n ≤ 7) : p.shiftRight .word n = p.shiftRight .byteLane n ↔
    ∀ i, i ∈ [1, 2, 3, 5, 6, 7] → p.blane i &&& BitVec.ofNat 8 (2 ^ n - 1) = 0x00#8 := by
  have hmem : ∀ i, i ∈ [1, 2, 3, 5, 6, 7] ↔ i < 8 ∧ i % 4 ≠ 0 := fun i => by simp; omega
  simp only [hmem, lowBits_eq_zero_iff, Pair.shiftRight_grains_eq_iff]
  refine ⟨fun h b hb i hi hin => ?_, fun h l hl h32 h8 => ?_⟩
  · rw [← Pair.lane_eq_blane p b hi, ← Nat.sub_add_cancel (n := 8 * b + i) (m := n) (by omega)]
    exact h _ (by omega) (by omega) (by omega)
  · rw [← Nat.div_add_mod (l + n) 8, Pair.lane_eq_blane p _ (Nat.mod_lt _ (by decide))]
    exact h _ (by omega) _ (by omega) (by omega)

end

end Sys2Proof

namespace Sys2Proof.Machine

/-- Settles O43: up to 7 places by the bits that would cross an edge; from 8 on the grain of a byte lane leaves zero. -/
theorem grainsAgreeOnMaskedOperands : Obligations.GrainsAgreeOnMaskedOperands := by
  intro s s' rd ra n hg hg' hsame
  refine ⟨⟨_, _, exec_bshl rd ra n hg, exec_bshl rd ra n hg', ?_⟩, ⟨_, _, exec_bshr rd ra n hg, exec_bshr rd ra n hg', ?_⟩⟩
  · rw [getB_complete_setB, getB_complete_setB, hsame]
    split_ifs with hn
    · exact Pair.shiftLeft_grains_eq_iff_highBits _ hn
    · rw [Pair.shiftLeft_byteLane_eq_zero _ (Nat.lt_of_not_le hn), and_iff_left rfl]
  · rw [getB_complete_setB, getB_complete_setB, hsame]
    split_ifs with hn
    · exact Pair.shiftRight_grains_eq_iff_lowBits _ hn
    · rw [Pair.shiftRight_byteLane_eq_zero _ (Nat.lt_of_not_le hn), and_iff_left rfl]

end Sys2Proof.Machine
end

section
/-! The laws of AND, OR and XOR for the byte lanes (spec/43_byte_lane_algebra.md R161), as command sequences. -/

namespace Sys2Proof

/-- A pair with 0x00 in every byte lane is `Pair.zero`. -/
theorem Pair.eq_zero_of_blanes {p : Pair} (h : ∀ b, b < 8 → p.blane b = 0x00#8) : p = .zero :=
  Pair.ext_blanes fun b hb => (h b hb).trans (Pair.blane_zero b).symm

/-- A pair with 0xFF in every byte lane is `Pair.ones`. -/
theorem Pair.eq_ones_of_blanes {p : Pair} (h : ∀ b, b < 8 → p.blane b = 0xFF#8) : p = .ones := by
  have hones : ∀ b, b < 8 → Pair.ones.blane b = 0xFF#8 := by decide
  exact Pair.ext_blanes fun b hb => (h b hb).trans (hones b hb).symm

end Sys2Proof

namespace Sys2Proof.Machine

theorem getB_setB (s : State) (i : Reg) (p : Pair) (q : Reg) :
    getB (setB s i p) q = if q = i then p else getB s q := by
  split_ifs with h
  · rw [h, getB_setB_same]
  · exact getB_setB_other s i p h

/-- As `exec_comm_assoc`, for a command that writes a B register. -/
theorem exec_comm_assoc_B {op : Reg → Reg → Reg → Instr} {f : Pair → Pair → Pair}
    (hx : ∀ rd ra rb s, exec (op rd ra rb) s = .next (complete (setB s rd (f (getB s ra) (getB s rb)))))
    (hcomm : ∀ p q, f p q = f q p) (hassoc : ∀ p q r, f (f p q) r = f p (f q r)) (s : State) (a b c u : Reg) :
    (∃ t t', exec (op u a b) s = .next t ∧ exec (op u b a) s = .next t' ∧ getB t u = getB t' u) ∧
    (u ≠ a → u ≠ c → ∃ t t', runInstrs [op u a b, op u u c] s = .next t ∧
      runInstrs [op u b c, op u a u] s = .next t' ∧ getB t u = getB t' u) := by
  refine ⟨⟨_, _, hx _ _ _ _, hx _ _ _ _, ?_⟩, fun hua huc => ⟨_, _, (runInstrs_cons (hx _ _ _ _) _).trans
    (runInstrs_cons (hx _ _ _ _) _), (runInstrs_cons (hx _ _ _ _) _).trans (runInstrs_cons (hx _ _ _ _) _), ?_⟩⟩
  · rw [getB_complete_setB, getB_complete_setB, hcomm]
  · simp only [getB_complete, getB_setB, if_true, if_neg hua.symm, if_neg huc.symm, hassoc]

/-- Settles O44: the laws of `Pair.and`, `Pair.or` and `Pair.xor`. -/
theorem byteLaneLaws : Obligations.ByteLaneLaws := by
  refine ⟨?_, fun s a z u => ⟨⟨_, exec_bxor u a a s, fun b _ => ?_⟩, fun hz => exec_getB_eq (exec_bor u a z s) ?_,
    fun hz => exec_getB_eq (exec_band u a z s) ?_⟩⟩
  · rintro op (rfl | rfl | rfl)
    · exact exec_comm_assoc_B exec_band Pair.and_comm Pair.and_assoc
    · exact exec_comm_assoc_B exec_bor Pair.or_comm Pair.or_assoc
    · exact exec_comm_assoc_B exec_bxor Pair.xor_comm Pair.xor_assoc
  · rw [getB_complete_setB, Pair.xor_self, Pair.blane_zero]
  · rw [Pair.eq_zero_of_blanes hz, Pair.or_zero]
  · rw [Pair.eq_ones_of_blanes hz, Pair.and_ones]

end Sys2Proof.Machine
end

section
/-! The synchronization stub (spec/44_sync.md R180): SYNC does nothing, and one word is SYNC. -/

namespace Sys2Proof

/-- An assigned opcode with a `zero` field that is not all 0 fails the second check of R94 (R90). -/
theorem decode_of_zeroField_ne {nmask : Nat} {w : Word} {op : Opcode} (hop : opField w = op.code)
    (hz : w.extractLsb' 0 op.format.zeroBits ≠ 0#op.format.zeroBits) : decode nmask w = .error .reservedBits := by
  simp [decode, zeroFieldIsZero, hop, hz]

theorem encode_sync : encode .sync = 0xC4000000#32 := by decide

/-- SYNC is well formed and has no operands, so the one word that decodes to it is its encoding (R93). -/
theorem decode_sync_iff (nmask : Nat) (w : Word) : decode nmask w = .ok .sync ↔ w = 0xC4000000#32 := by
  rw [← encode_sync]
  constructor
  · intro h
    exact (encode_of_decode h).symm
  · rintro rfl
    exact decode_encode rfl

end Sys2Proof

namespace Sys2Proof.Machine

theorem exec_sync (s : State) : exec .sync s = .next (complete s) := rfl

/-- Settles O45: SYNC is completion alone, its word is its encoding, and any other word with its opcode has a reserved bit
set. -/
theorem syncDoesNothing : Obligations.SyncDoesNothing :=
  ⟨fun s => ⟨complete s, exec_sync s, onlyIndex_complete s, complete_pc s⟩, decode_sync_iff,
    fun _ _ hop hz => decode_of_zeroField_ne (op := .sync) hop hz⟩

end Sys2Proof.Machine
end

section
/-! Faults (spec/60_exceptions.md R190 to R204): which commands fault, what the halted unit does with the host's moves, and
`fault_o`. -/

namespace Sys2Proof.Machine

/-! ### Every word completes or takes one fault -/

/-- Settles O10: a word that decodes is executed, and its fault records its own encoding; any other takes ILLEGAL_COMMAND. -/
theorem everyWordCompletesOrFaultsPrecisely : Obligations.EveryWordCompletesOrFaultsPrecisely := by
  intro s cmd rest hs hf
  cases hd : decode s.params.nmask cmd with
  | ok i =>
    obtain ⟨t, ht, hscript, hcase⟩ := exec_completes_or_faults i { s with script := rest }
    refine ⟨t, (step_decoded hs hf hd).trans ht, hscript, ?_⟩
    rcases hcase with ⟨hpc, hcontrol, -⟩ | ⟨c, rfl⟩
    · exact .inl ⟨i, rfl, ht, hpc, hcontrol⟩
    · exact .inr ⟨c, encode_of_decode hd ▸ faultTaken_takeFault _ _ _⟩
  | error e => exact ⟨_, step_illegal hs hf hd, rfl, .inr ⟨_, faultTaken_takeFault _ _ _⟩⟩

/-! ### The commands that fault -/

section
variable {i : Instr} {s : State}

theorem inRange_of_isLaneVector (h : isLaneVector i = true) : inRange i s = true := by
  cases i with
  | vzero | vones | vand | vor | vxor | vnot => rfl
  | tload | tstore | taccx | band | bor | bxor | bmask | bshl | bshr | sync => cases h

theorem exec_pc_of_inRange (h : inRange i s = true) : ∃ t, exec i s = .next t ∧ t.pc = s.pc + 1 := by
  cases i with
  | tload r slot => exact ⟨_, exec_tload_inRange r ((slotInRange_iff s slot).1 h), rfl⟩
  | tstore r slot =>
    exact ⟨_, exec_tstore_inRange r ((slotInRange_iff s slot).1 h), by rw [complete_pc, writeSlot_pc]⟩
  | taccx cnt slot obase =>
    obtain ⟨hcnt, hslot, hout⟩ := (taccxCheck_none_iff s cnt slot obase).1 (Option.isNone_iff_eq_none.1 h)
    exact ⟨_, exec_taccx_inRange hcnt hslot hout, by rw [complete_pc, accumulate_pc]⟩
  | bmask rd k => exact ⟨_, exec_bmask rd (List.getElem?_eq_getElem (of_decide_eq_true h)), rfl⟩
  | vzero | vones | vand | vor | vxor | vnot | band | bor | bxor | bshl | bshr | sync => exact ⟨_, rfl, rfl⟩

/-- A command in range completes: the fault entry would have left the host's index. -/
theorem exec_completes_of_inRange (h : inRange i s = true) :
    ∃ t, exec i s = .next t ∧ t.pc = s.pc + 1 ∧ SameControl s t ∧ SameHost s t := by
  obtain ⟨t, ht, hpc⟩ := exec_pc_of_inRange h
  obtain ⟨t', ht', -, hcase⟩ := exec_completes_or_faults i s
  obtain rfl : t = t' := Host.Outcome.next.inj (ht.symm.trans ht')
  rcases hcase with hcompletes | ⟨c, rfl⟩
  · exact ⟨t, ht, hcompletes⟩
  · rw [takeFault_pc] at hpc
    omega

theorem exec_faults_of_outOfRange (h : inRange i s = false) :
    ∃ c, exec i s = .next (takeFault c (encode i) s) := by
  cases i with
  | tload r slot => exact ⟨_, exec_tload_outOfRange r (Nat.not_lt.1 (of_decide_eq_false h))⟩
  | tstore r slot => exact ⟨_, exec_tstore_outOfRange r (Nat.not_lt.1 (of_decide_eq_false h))⟩
  | taccx cnt slot obase =>
    obtain ⟨c, hc⟩ := Option.isSome_iff_exists.1 (Option.isNone_eq_false_iff.1 h)
    exact ⟨c, exec_taccx_fault hc⟩
  | bmask rd k => exact ⟨_, exec_bmask_missing rd (Nat.not_lt.1 (of_decide_eq_false h))⟩
  | vzero | vones | vand | vor | vxor | vnot | band | bor | bxor | bshl | bshr | sync => cases h

end

/-- Settles O46: the checks a command makes are those of `inRange`, and the Lane Vector commands make none. -/
theorem onlyOutOfRangeFieldsFault : Obligations.OnlyOutOfRangeFieldsFault := by
  intro i s
  cases hr : inRange i s with
  | true =>
    obtain ⟨t, ht, hcompletes⟩ := exec_completes_of_inRange hr
    exact ⟨t, ht, hcompletes, fun _ => rfl⟩
  | false =>
    obtain ⟨c, hc⟩ := exec_faults_of_outOfRange hr
    exact ⟨_, hc, ⟨c, faultTaken_takeFault _ _ _⟩, fun hv => hr.symm.trans (inRange_of_isLaneVector hv)⟩

/-! ### The halted unit -/

/-- The four things a host access that gives a next state can be: a reset, a register write, a byte write, or a read, which
only adds a reply (R226). -/
theorem hostAccess_kinds {a : HostAccess} {s t : State} (h : hostAccess a s = .next t) :
    (a = .reset ∧ t = hostReset s) ∨
    (∃ sel idx data, a = .writeReg sel idx data ∧ t = hostWriteReg sel idx data s) ∨
    (∃ space addr x, a = .writeByte space addr x ∧ t = writeByte s space addr x) ∨
    ∃ r, t = reply r s := by
  cases a with
  | reset => exact .inl ⟨rfl, (Host.Outcome.next.inj h).symm⟩
  | writeReg sel idx data => exact .inr (.inl ⟨sel, idx, data, rfl, (Host.Outcome.next.inj h).symm⟩)
  | readReg sel idx => exact .inr (.inr (.inr ⟨_, (Host.Outcome.next.inj h).symm⟩))
  | writeByte space addr x =>
    rw [hostAccess] at h
    split_ifs at h
    exact .inr (.inr (.inl ⟨space, addr, x, rfl, (Host.Outcome.next.inj h).symm⟩))
  | readByte space addr =>
    rw [hostAccess] at h
    split_ifs at h
    exact .inr (.inr (.inr ⟨_, (Host.Outcome.next.inj h).symm⟩))
  | watchFault => exact .inr (.inr (.inr ⟨_, (Host.Outcome.next.inj h).symm⟩))

/-- A register write through the host's port touches no byte (R36). -/
theorem hostWriteReg_sameMemory (sel : BitVec 2) (idx : Reg) (data : BitVec 64) (s : State) :
    SameTab s (hostWriteReg sel idx data s) ∧ SameOut s (hostWriteReg sel idx data s) := by
  unfold hostWriteReg
  split <;> exact ⟨fun _ => rfl, fun _ => rfl⟩

section
variable {a : HostAccess} {s t : State} (h : hostAccess a s = .next t)
include h

theorem hostAccess_sameRegisters (hreset : a ≠ .reset) (hwrite : ∀ sel idx data, a ≠ .writeReg sel idx data) :
    SameV s t ∧ SameB s t := by
  rcases hostAccess_kinds h with ⟨ha, -⟩ | ⟨sel, idx, data, ha, -⟩ | ⟨space, addr, x, -, rfl⟩ | ⟨r, rfl⟩
  · exact absurd ha hreset
  · exact absurd ha (hwrite sel idx data)
  · obtain ⟨hv, hb, -⟩ := writeByte_frame s space addr x
    exact ⟨hv, hb⟩
  · exact ⟨fun _ => ⟨rfl, rfl⟩, fun _ => ⟨rfl, rfl⟩⟩

theorem hostAccess_sameMemory (hwrite : ∀ space addr x, a ≠ .writeByte space addr x) : SameTab s t ∧ SameOut s t := by
  rcases hostAccess_kinds h with ⟨-, rfl⟩ | ⟨sel, idx, data, -, rfl⟩ | ⟨space, addr, x, ha, -⟩ | ⟨r, rfl⟩
  · exact ⟨fun _ => rfl, fun _ => rfl⟩
  · exact hostWriteReg_sameMemory sel idx data s
  · exact absurd ha (hwrite space addr x)
  · exact ⟨fun _ => rfl, fun _ => rfl⟩

end

/-- Settles O47: the halted unit leaves the state when a command is presented, and a host access writes what it names. -/
theorem haltedUnitAcceptsNothing : Obligations.HaltedUnitAcceptsNothing := by
  refine fun s hf => ⟨fun cmd rest hs => ?_, fun a rest t hs ht => ?_⟩
  · exact ⟨s, step_halted hs hf, fun _ => ⟨rfl, rfl⟩, fun _ => ⟨rfl, rfl⟩, fun _ => rfl, fun _ => rfl, ⟨rfl, rfl⟩, rfl⟩
  · have ha : hostAccess a { s with script := rest } = .next t := (step_access hs).symm.trans ht
    refine ⟨fun hreset => ?_, fun hreset hwrite => (hostAccess_sameRegisters ha hreset hwrite :),
      fun hwrite => (hostAccess_sameMemory ha hwrite :)⟩
    obtain ⟨-, -, hcontrol⟩ := hostAccess_keeps hreset ha
    exact hcontrol

/-- Settles O48: FAULT is sticky but for a reset, which marks no register as written; the port's accesses do not look at
FAULT. -/
theorem onlyResetLeavesAFault : Obligations.OnlyResetLeavesAFault := by
  refine fun s hs => ⟨fun t ht h0 => ?_, fun rest h => ?_, fun rest sel idx data h => ?_, fun rest space addr x haddr h => ?_⟩
  · exact (step_fault_sticky ht hs).resolve_left (Bool.eq_false_iff.1 h0)
  · exact ⟨_, step_access h, faultBit_hostReset _,
      fun q => ⟨writtenV_of_noneWritten rfl q, writtenB_of_noneWritten rfl q⟩⟩
  · rcases h with h | h
    · exact ⟨_, step_access h⟩
    · exact ⟨_, step_access h⟩
  · rcases h with h | h
    · exact ⟨_, step_readByte h haddr⟩
    · exact ⟨_, step_writeByte h haddr⟩

/-! ### fault_o -/

/-- Settles O50: `fault_o` is FAULT, which only a fault entry sets, with the word presented in FCMD, and only a reset clears. -/
theorem faultOutIsTheFaultBit : Obligations.FaultOutIsTheFaultBit := by
  refine ⟨fun _ => rfl, by decide, fun s t h => ⟨fun h0 h1 => ?_, fun h1 h0 => ?_⟩, fun s rest h => step_access h⟩
  · obtain ⟨-, hrises, -⟩ := step_fcmd h
    obtain ⟨rest, hscript⟩ := hrises h0 h1
    exact ⟨t.fcmd, rest, hscript, rfl⟩
  · exact (step_fault_sticky h h1).resolve_left (Bool.eq_false_iff.1 h0)

end Sys2Proof.Machine
end

section
/-! Runs of a program (spec/70_reset_and_hazards.md R230, R241): what a step does to the words left, the invariant every run
keeps, and N words presented one after another. -/

namespace Sys2Proof.Machine

/-! ### A step of a run -/

/-- How the unit has answered the word at the head of the script `.issue w :: rest`: the command has completed and the host's
index has moved on (R26), or it has faulted and the index stands at the word, which FCMD holds (R200, R201). -/
def Answered (w : Word) (rest : List HostMove) (s t : State) : Prop :=
  t.script = rest ∧
    ((faultBit t = false ∧ t.pc = s.pc + 1) ∨ (faultBit t = true ∧ t.pc = s.pc ∧ t.fcmd = w))

/-- A word presented to a unit that is not halted is answered in one step. -/
theorem step_answers {s : State} {w : Word} {rest : List HostMove} (hs : s.script = .issue w :: rest)
    (hf : halted s = false) : ∃ t, step s = .next t ∧ Answered w rest s t := by
  obtain ⟨t, ht, hscript, ⟨i, -, -, hpc, hcontrol⟩ | ⟨c, hfault, -, -, hfcmd, -, -, -, -, -, hpc⟩⟩ :=
    everyWordCompletesOrFaultsPrecisely s w rest hs hf
  · exact ⟨t, ht, hscript, .inl ⟨(faultBit_congr hcontrol).trans hf, hpc⟩⟩
  · exact ⟨t, ht, hscript, .inr ⟨hfault, hpc, hfcmd⟩⟩

/-- A step that is not a reset leaves the state, answers a word, or is a host access that leaves the words left, the host's
index and the control registers. -/
theorem step_cases_notReset {s t : State} (hr : ∀ rest, s.script ≠ .access .reset :: rest) (h : step s = .next t) :
    t = s ∨
    (∃ w rest, s.script = .issue w :: rest ∧ halted s = false ∧ Answered w rest s t) ∨
    (wordsLeft t = wordsLeft s ∧ t.pc = s.pc ∧ SameControl s t) := by
  match hs : s.script with
  | [] => exact .inl (Host.Outcome.next.inj ((step_nil hs).symm.trans h)).symm
  | .issue w :: rest =>
    cases hf : halted s with
    | true => exact .inl (Host.Outcome.next.inj ((step_halted hs hf).symm.trans h)).symm
    | false =>
      obtain ⟨u, hu, hanswer⟩ := step_answers hs hf
      obtain rfl : u = t := Host.Outcome.next.inj (hu.symm.trans h)
      exact .inr (.inl ⟨w, rest, rfl, rfl, hanswer⟩)
  | .access a :: rest =>
    have ha : a ≠ .reset := fun e => hr rest (e ▸ hs)
    obtain ⟨hscript, hpc, hcontrol⟩ := hostAccess_keeps ha ((step_access hs).symm.trans h)
    refine .inr (.inr ⟨?_, hpc, hcontrol⟩)
    rw [wordsLeft_access hs ha, wordsLeft, hscript]

/-! ### The invariant of a run -/

/-- The state stands where a run of the program can stand: without a fault the words left are those from the host's index on,
and after a fault the index is that of the word in FCMD. -/
def OnTrack (prog : List Word) (t : State) : Prop :=
  (faultBit t = false → t.pc ≤ prog.length ∧ wordsLeft t = prog.drop t.pc) ∧
    (faultBit t = true → prog[t.pc]? = some t.fcmd)

theorem BeginsRun.onTrack {prog : List Word} {s : State} (h : BeginsRun prog s) : OnTrack prog s := by
  obtain ⟨hpc, hf, hwords⟩ := h
  refine ⟨fun _ => ⟨by omega, by rw [hpc, hwords, List.drop_zero]⟩, fun hf' => ?_⟩
  rw [hf] at hf'
  cases hf'

section
variable {prog : List Word} {s t : State}

/-- The word answered was the program's word at the host's index. -/
theorem OnTrack.answered {w : Word} {rest : List HostMove} (h : OnTrack prog s) (hs : s.script = .issue w :: rest)
    (hf : halted s = false) (ha : Answered w rest s t) : OnTrack prog t := by
  obtain ⟨-, hwords⟩ := h.1 hf
  rw [wordsLeft_issue hs] at hwords
  have hw : prog[s.pc]? = some w := by rw [← List.head?_drop, ← hwords, List.head?_cons]
  have hrest : wordsLeft t = prog.drop (s.pc + 1) := by
    rw [← List.tail_drop, ← hwords, List.tail_cons, wordsLeft, ha.1]
  obtain ⟨-, ⟨hft, hpc⟩ | ⟨hft, hpc, hfcmd⟩⟩ := ha
  · obtain ⟨hlt, -⟩ := List.getElem?_eq_some_iff.1 hw
    exact ⟨fun _ => ⟨hpc ▸ hlt, hpc ▸ hrest⟩, fun hf' => absurd hf' (Bool.eq_false_iff.1 hft)⟩
  · exact ⟨fun hf' => absurd hft (Bool.eq_false_iff.1 hf'), fun _ => by rw [hpc, hfcmd, hw]⟩

theorem OnTrack.of_step (h : OnTrack prog s) (hr : ∀ rest, s.script ≠ .access .reset :: rest)
    (hs : step s = .next t) : OnTrack prog t := by
  rcases step_cases_notReset hr hs with rfl | ⟨w, rest, hscript, hf, ha⟩ | ⟨hwords, hpc, hcontrol⟩
  · exact h
  · exact h.answered hscript hf ha
  · rw [OnTrack, faultBit_congr hcontrol, hwords, hpc, hcontrol.2]
    exact h

/-- Every state of a run is on track, by induction on its steps. -/
theorem InRun.onTrack (h : InRun prog s t) : OnTrack prog t := by
  obtain ⟨hbegins, hreach⟩ := h
  induction hreach with
  | refl => exact hbegins.onTrack
  | snoc _ hr hs ih => exact ih.of_step hr hs

/-! ### The end of a run -/

theorem runOver_iff : runOver prog t = true ↔ t.pc = prog.length ∨ faultBit t = true := by
  simp [runOver]

theorem runCompleted_iff : runCompleted prog t = true ↔ t.pc = prog.length ∧ faultBit t = false := by
  simp [runCompleted]

theorem runFaulted_iff : runFaulted prog t = true ↔ faultBit t = true ∧ prog[t.pc]? = some t.fcmd := by
  simp [runFaulted]

/-- R230: a run is over when it has completed or has faulted. -/
theorem OnTrack.runOver_iff_completed_or_faulted (h : OnTrack prog t) :
    runOver prog t = true ↔ runCompleted prog t = true ∨ runFaulted prog t = true := by
  rw [runOver_iff, runCompleted_iff, runFaulted_iff]
  cases hf : faultBit t with
  | false => simp
  | true => simp [h.2 hf]

theorem not_runCompleted_and_runFaulted : ¬(runCompleted prog t = true ∧ runFaulted prog t = true) := by
  rw [runCompleted_iff, runFaulted_iff]
  rintro ⟨⟨-, h0⟩, h1, -⟩
  exact absurd h1 (Bool.eq_false_iff.1 h0)

theorem OnTrack.runOver_of_wordsLeft_nil (h : OnTrack prog t) (hwords : wordsLeft t = []) : runOver prog t = true := by
  rw [runOver_iff]
  cases hf : faultBit t with
  | true => exact .inr rfl
  | false =>
    obtain ⟨hle, hdrop⟩ := h.1 hf
    exact .inl (Nat.le_antisymm hle (List.drop_eq_nil_iff.1 (hdrop.symm.trans hwords)))

/-! ### Words presented one after another -/

theorem run_succ {M : Host.Core} {x y : M.State} (k : Nat) (h : M.step x = .next y) : M.run (k + 1) x = M.run k y := by
  rw [Host.Core.run, h]

/-- A state that its own step leaves is left by every number of steps. -/
theorem run_of_step_self (k : Nat) (h : step s = .next s) : Host.Core.run core k s = .next s := by
  induction k with
  | zero => rfl
  | succ k ih => exact (run_succ (M := core) k h).trans ih

/-- The halted unit accepts none of the words that are left (R202). -/
theorem step_self_of_halted (hf : halted s = true) (hs : s.script = prog.map .issue) : step s = .next s := by
  cases prog with
  | nil => exact step_nil hs
  | cons w ws => exact step_halted hs hf

/-- How the words of `prog`, presented one after another from `s`, end in `t`: all have completed, or the first that faults
leaves the host's index at its place and stands in FCMD. -/
def EndsAfter (prog : List Word) (s t : State) : Prop :=
  (t.script = [] ∧ faultBit t = false ∧ t.pc = s.pc + prog.length) ∨
    (faultBit t = true ∧ s.pc ≤ t.pc ∧ t.pc < s.pc + prog.length ∧ prog[t.pc - s.pc]? = some t.fcmd)

theorem EndsAfter.cons {u : State} {w : Word} {ws : List Word} (hpc : t.pc = s.pc + 1) (h : EndsAfter ws t u) :
    EndsAfter (w :: ws) s u := by
  rcases h with ⟨hscript, hf, hlen⟩ | ⟨hf, hle, hlt, hword⟩
  · exact .inl ⟨hscript, hf, by rw [List.length_cons]; omega⟩
  · refine .inr ⟨hf, by omega, by rw [List.length_cons]; omega, ?_⟩
    rw [show u.pc - s.pc = (u.pc - t.pc) + 1 by omega, List.getElem?_cons_succ, hword]

/-- N words presented to a unit that is not halted come to an end in N steps, and no further step changes the state. By
induction on the words: one that completes leaves the rest to a unit that is not halted, one that faults halts the unit. -/
theorem run_ends : ∀ (prog : List Word) (s : State), halted s = false → s.script = prog.map .issue →
    ∃ t, Host.Core.run core prog.length s = .next t ∧ Reaches s t ∧ EndsAfter prog s t ∧ step t = .next t
  | [], s, hf, hs => ⟨s, rfl, .refl s, .inl ⟨hs, hf, rfl⟩, step_nil hs⟩
  | w :: ws, s, hf, hs => by
    obtain ⟨t, ht, hscript, ⟨hft, hpc⟩ | ⟨hft, hpc, hfcmd⟩⟩ := step_answers hs hf
    · obtain ⟨u, hrun, hreach, hends, hself⟩ := run_ends ws t hft hscript
      exact ⟨u, (run_succ (M := core) _ ht).trans hrun, hreach.head (notReset_of_issue hs) ht, hends.cons hpc, hself⟩
    · have hself : step t = .next t := step_self_of_halted hft hscript
      refine ⟨t, (run_succ (M := core) _ ht).trans (run_of_step_self _ hself), .snoc (.refl s) (notReset_of_issue hs) ht,
        .inr ⟨hft, hpc.ge, by simp [hpc], by simp [hpc, hfcmd]⟩, hself⟩

/-- From index 0 an end of the words presented is the end of the run. -/
theorem EndsAfter.runOver_of_pc_zero (h : EndsAfter prog s t) (hpc : s.pc = 0) : runOver prog t = true := by
  rw [runOver_iff]
  rcases h with ⟨-, -, hlen⟩ | ⟨hf, -⟩
  · exact .inl (by omega)
  · exact .inr hf

end

/-- Settles O59: every state of a run is on track, which gives the clauses about its end; N words end by induction on them. -/
theorem runsEndAfterAtMostOneStepPerCommand : Obligations.RunsEndAfterAtMostOneStepPerCommand := by
  refine ⟨fun prog s t h => ?_, fun s h => ⟨⟨h, .refl s⟩, ?_⟩, fun prog s hf hs => ?_⟩
  · have htrack : OnTrack prog t := h.onTrack
    exact ⟨htrack.1, htrack.2, htrack.runOver_iff_completed_or_faulted, not_runCompleted_and_runFaulted,
      htrack.runOver_of_wordsLeft_nil⟩
  · obtain ⟨hpc, hf, -⟩ := h
    exact runCompleted_iff.2 ⟨hpc, hf⟩
  · obtain ⟨t, hrun, hreach, hends, hself⟩ := run_ends prog s hf hs
    exact ⟨t, hrun, hreach, hends,
      fun hpc => ⟨⟨⟨hpc, hf, wordsLeft_map_issue hs⟩, hreach⟩, hends.runOver_of_pc_zero hpc⟩, hself⟩

end Sys2Proof.Machine
end


section
/-! The example word of each command's rule (spec/41_lane_vector_algebra.md to spec/44_sync.md), decoded. -/

namespace Sys2Proof

/-- A word known as the encoding of a well-formed command decodes to that command (R93, the round trip of O1). -/
theorem decode_of_encode_eq {nmask : Nat} {w : Word} {i : Instr} (h : encode i = w) (hwf : wellFormed nmask i = true) :
    decode nmask w = .ok i := by
  subst h
  exact decode_encode hwf

/-- Settles O4: each printed word is the encoding of its command, and each command is well formed with one mask constant
(BMASK 1, 0 is the one that needs it), so the round trip of O1 decodes the word to the command. -/
theorem exampleWordsDecode : Obligations.ExampleWordsDecode := by
  unfold Obligations.ExampleWordsDecode
  and_intros <;> exact decode_of_encode_eq (by decide) rfl

end Sys2Proof
end
